-- ==== Sys2Proof/Word.lean ====
section
/-! DEFINITION. The bit-vector types of HGP-FC, with the widths of `spec/00_scope.md` rules R7, R9 and
`spec/10_state.md` rule R20. Every value of the block is an unsigned bit vector (rule R10). -/

namespace Sys2Proof

/-- A byte of either store, an operand field `imm8`, the id and length registers (rules R10, R85). -/
abbrev Byte := BitVec 8

/-- A 16-bit command word, checksum or response value (rules R9, R85, R86). -/
abbrev Word := BitVec 16

/-- A version number: `VW` = 2 bits (rule R7). -/
abbrev Version := BitVec 2

/-- A flags value: `FW` = 6 bits (rules R7, R72). -/
abbrev Flags := BitVec 6

end Sys2Proof
end

