-- ==== Sys2Proof/Config.lean ====
section
/-! DEFINITION. The implementation parameters of `spec/00_scope.md` section 4 (rules R5 to R9), every row a
constant of its own so that a statement can name it. `spec/92_eei_decisions.md` ("Open parameters") says that a
model fixes the decided ones as constants. The two open parameters `HOST_ATTACHMENT` and `COMMAND_LATENCY` are not
modelled: no rule depends on them (log entries 11 and 12). HGP-FC leaves no value free, so no constant here is without a body. -/

namespace Sys2Proof

/-! ### CRC parameters (rule R5) -/

/-- `CRC_POLY`: the generator `x^16 + x^12 + x^5 + 1` without its top term (rules R5, R100). -/
def Config.crcPoly : Word := 0x1021

/-- `CRC_INIT` (rule R5). -/
abbrev Config.crcInit : Word := 0x0000

/-- `CRC_REFIN`: input bytes are not reflected (rule R5). `crcStep` is written for this value. -/
def Config.crcRefin : Bool := false

/-- `CRC_REFOUT`: the result is not reflected (rule R5). `crc16` is written for this value. -/
def Config.crcRefout : Bool := false

/-- `CRC_XOROUT`: nothing is XORed into the result (rule R5). `crc16` is written for this value. -/
def Config.crcXorout : Word := 0x0000

/-! ### Limits and sizes (rules R6, R9) -/

/-- `MAX_FRAME_PAYLOAD`, the number of bytes of `PL` (rules R6, R9, R27). -/
abbrev Config.maxFramePayload : Nat := 255

/-- `MAX_CHUNKS_PER_TRANSMISSION`: only the surrounding software uses it (rule R6). -/
abbrev Config.maxChunksPerTransmission : Nat := 16

/-- `HEADER_BYTES` (rule R6). -/
abbrev Config.headerBytes : Nat := 3

/-- `TRAILER_BYTES` (rule R6). -/
abbrev Config.trailerBytes : Nat := 2

/-- `MIN_FRAME_BYTES`: a header and a trailer (rule R6). -/
abbrev Config.minFrameBytes : Nat := 5

/-- `MAX_FRAME_BYTES`, the number of bytes of `BUF` (rules R6, R9, R28). -/
abbrev Config.maxFrameBytes : Nat := 260

/-! ### Byte 0 and the protocol version (rule R7) -/

/-- `VW`, the width of the version field. -/
abbrev Config.vw : Nat := 2

/-- `FW`, the width of the flags field. -/
abbrev Config.fw : Nat := 6

/-- `SUPPORTED_VERSION`. -/
abbrev Config.supportedVersion : Version := 0

/-! ### Flag values (rules R8, R73, R74) -/

/-- Type code 1, synchronization-handshake. -/
def Config.syn : Flags := 0x01
/-- Type code 2, certificate/credential. -/
def Config.cer : Flags := 0x02
/-- Type code 3, aggregation-descriptor. -/
def Config.agg : Flags := 0x03
/-- Type code 4, station-descriptor. -/
def Config.sta : Flags := 0x04
/-- Type code 5, data-payload. -/
def Config.dat : Flags := 0x05
/-- Type code 6, error-message. -/
def Config.err : Flags := 0x06
/-- Type code 7, communication-end (the terminator's type). -/
def Config.fin : Flags := 0x07
/-- `CHUNK_BIT`, the chunk-in-progress decorator. -/
def Config.chunkBit : Flags := 0x08
/-- `ACK_BIT`, the acknowledge-requested decorator. -/
def Config.ackBit : Flags := 0x10
/-- `FLAGS_RESERVED_MASK`. -/
def Config.flagsReservedMask : Flags := 0x20

end Sys2Proof
end

