-- ==== Sys2Proof/Syntax.lean ====
section
/-! DEFINITION. The commands of HGP-FC as terms: the 29 rows of `spec/opcode_table.json` (`spec/30_encoding.md`
rule R87), their two formats (rule R85), and the assembly text's terms (rules R89, R90). No encoding stands here:
that is `Sys2Proof/Decode.lean`. -/

namespace Sys2Proof

/-- The two formats of a command word (rule R85): `n` has no operand, `i` has the 8-bit operand `imm8`. -/
inductive Format where
  | n
  | i
  deriving DecidableEq, Repr

/-- The mnemonics of rule R87, in the order of the opcode table. -/
inductive Mnemonic where
  | nop
  | reset
  | clrerr
  | rdstat
  | crcinit
  | crcbyte
  | rdcrc
  | setver
  | setflg
  | setid
  | plclr
  | plpush
  | setb0
  | rdver
  | rdflg
  | rdid
  | rdlen
  | rdcsum
  | rdpl
  | rdclass
  | rdb0
  | bufclr
  | bufpush
  | rdcnt
  | rdbuf
  | rdbufh
  | encode
  | decode
  | tag
  deriving DecidableEq, Repr

/-- The commands (rule R87), one constructor per row of the opcode table; a format `I` command carries its
operand field `imm8`. -/
inductive Instr where
  /-- `NOP` (R190). -/
  | nop
  /-- `RESET` (R191). -/
  | reset
  /-- `CLRERR` (R192). -/
  | clrerr
  /-- `RDSTAT` (R193). -/
  | rdstat
  /-- `CRCINIT` (R105). -/
  | crcinit
  /-- `CRCBYTE imm8`, `imm8` the next message byte (R106). -/
  | crcbyte (imm8 : Byte)
  /-- `RDCRC` (R107). -/
  | rdcrc
  /-- `SETVER imm8`, `imm8` the version to load (R120). -/
  | setver (imm8 : Byte)
  /-- `SETFLG imm8`, `imm8` the flags value to load (R121). -/
  | setflg (imm8 : Byte)
  /-- `SETID imm8`, `imm8` the transmission id (R122). -/
  | setid (imm8 : Byte)
  /-- `PLCLR` (R124). -/
  | plclr
  /-- `PLPUSH imm8`, `imm8` the next payload byte (R125). -/
  | plpush (imm8 : Byte)
  /-- `SETB0 imm8`, `imm8` a header byte 0 (R123). -/
  | setb0 (imm8 : Byte)
  /-- `RDVER` (R126). -/
  | rdver
  /-- `RDFLG` (R127). -/
  | rdflg
  /-- `RDID` (R128). -/
  | rdid
  /-- `RDLEN` (R129). -/
  | rdlen
  /-- `RDCSUM` (R130). -/
  | rdcsum
  /-- `RDPL imm8`, `imm8` the payload index (R131). -/
  | rdpl (imm8 : Byte)
  /-- `RDCLASS` (R132). -/
  | rdclass
  /-- `RDB0` (R133). -/
  | rdb0
  /-- `BUFCLR` (R150). -/
  | bufclr
  /-- `BUFPUSH imm8`, `imm8` the next received wire byte (R151). -/
  | bufpush (imm8 : Byte)
  /-- `RDCNT` (R152). -/
  | rdcnt
  /-- `RDBUF imm8`, `imm8` a buffer index 0 to 255 (R153). -/
  | rdbuf (imm8 : Byte)
  /-- `RDBUFH imm8`, `imm8` a buffer index minus 256 (R154). -/
  | rdbufh (imm8 : Byte)
  /-- `ENCODE` (R160). -/
  | encode
  /-- `DECODE` (R161). -/
  | decode
  /-- `TAG imm8`, `imm8` the transmission id to stamp (R162). -/
  | tag (imm8 : Byte)
  deriving DecidableEq, Repr

/-- The mnemonic of a command. -/
def Instr.mnemonic : Instr → Mnemonic
  | .nop => .nop
  | .reset => .reset
  | .clrerr => .clrerr
  | .rdstat => .rdstat
  | .crcinit => .crcinit
  | .crcbyte _ => .crcbyte
  | .rdcrc => .rdcrc
  | .setver _ => .setver
  | .setflg _ => .setflg
  | .setid _ => .setid
  | .plclr => .plclr
  | .plpush _ => .plpush
  | .setb0 _ => .setb0
  | .rdver => .rdver
  | .rdflg => .rdflg
  | .rdid => .rdid
  | .rdlen => .rdlen
  | .rdcsum => .rdcsum
  | .rdpl _ => .rdpl
  | .rdclass => .rdclass
  | .rdb0 => .rdb0
  | .bufclr => .bufclr
  | .bufpush _ => .bufpush
  | .rdcnt => .rdcnt
  | .rdbuf _ => .rdbuf
  | .rdbufh _ => .rdbufh
  | .encode => .encode
  | .decode => .decode
  | .tag _ => .tag

/-- The operand of a command: none in format `N`, `imm8` in format `I` (rule R85). -/
def Instr.operand? : Instr → Option Byte
  | .nop => none
  | .reset => none
  | .clrerr => none
  | .rdstat => none
  | .crcinit => none
  | .crcbyte b => some b
  | .rdcrc => none
  | .setver b => some b
  | .setflg b => some b
  | .setid b => some b
  | .plclr => none
  | .plpush b => some b
  | .setb0 b => some b
  | .rdver => none
  | .rdflg => none
  | .rdid => none
  | .rdlen => none
  | .rdcsum => none
  | .rdpl b => some b
  | .rdclass => none
  | .rdb0 => none
  | .bufclr => none
  | .bufpush b => some b
  | .rdcnt => none
  | .rdbuf b => some b
  | .rdbufh b => some b
  | .encode => none
  | .decode => none
  | .tag b => some b

/-- The format column of rule R87. -/
def Mnemonic.format : Mnemonic → Format
  | .nop => .n
  | .reset => .n
  | .clrerr => .n
  | .rdstat => .n
  | .crcinit => .n
  | .crcbyte => .i
  | .rdcrc => .n
  | .setver => .i
  | .setflg => .i
  | .setid => .i
  | .plclr => .n
  | .plpush => .i
  | .setb0 => .i
  | .rdver => .n
  | .rdflg => .n
  | .rdid => .n
  | .rdlen => .n
  | .rdcsum => .n
  | .rdpl => .i
  | .rdclass => .n
  | .rdb0 => .n
  | .bufclr => .n
  | .bufpush => .i
  | .rdcnt => .n
  | .rdbuf => .i
  | .rdbufh => .i
  | .encode => .n
  | .decode => .n
  | .tag => .i

/-- The command of a mnemonic with operand field `imm8`; a format `N` command has no use for the field. -/
def Mnemonic.build : Mnemonic → Byte → Instr
  | .nop, _ => .nop
  | .reset, _ => .reset
  | .clrerr, _ => .clrerr
  | .rdstat, _ => .rdstat
  | .crcinit, _ => .crcinit
  | .crcbyte, b => .crcbyte b
  | .rdcrc, _ => .rdcrc
  | .setver, b => .setver b
  | .setflg, b => .setflg b
  | .setid, b => .setid b
  | .plclr, _ => .plclr
  | .plpush, b => .plpush b
  | .setb0, b => .setb0 b
  | .rdver, _ => .rdver
  | .rdflg, _ => .rdflg
  | .rdid, _ => .rdid
  | .rdlen, _ => .rdlen
  | .rdcsum, _ => .rdcsum
  | .rdpl, b => .rdpl b
  | .rdclass, _ => .rdclass
  | .rdb0, _ => .rdb0
  | .bufclr, _ => .bufclr
  | .bufpush, b => .bufpush b
  | .rdcnt, _ => .rdcnt
  | .rdbuf, b => .rdbuf b
  | .rdbufh, b => .rdbufh b
  | .encode, _ => .encode
  | .decode, _ => .decode
  | .tag, b => .tag b

/-! ### Assembly text (rules R89, R90) -/

/-- An operand as the assembly text writes it (rules R89, R90): a decimal number, a hexadecimal number with
prefix `0x`, one character between single quotes (by its code), or, in a pseudo-instruction, a double-quoted
string (by its character codes). -/
inductive AsmOperand where
  | dec (n : Nat)
  | hex (n : Nat)
  | chr (code : Nat)
  | str (codes : List Nat)
  deriving DecidableEq, Repr

/-- The four pseudo-instructions of rule R90. -/
inductive Pseudo where
  | crcbytes
  | crc16
  | plload
  | bufload
  deriving DecidableEq, Repr

/-- One line of assembly (rules R89, R90): a command, a pseudo-instruction, or, by the model's choice (DESIGN CHOICE, log
entry 10), a line without a command. -/
inductive AsmLine where
  | blank
  | command (m : Mnemonic) (operands : List AsmOperand)
  | pseudo (p : Pseudo) (operands : List AsmOperand)
  deriving DecidableEq, Repr

end Sys2Proof
end

