-- ==== Sys2Proof/WellFormed.lean ====
section
/-! DEFINITION. Which terms of `Sys2Proof/Syntax.lean` are well formed. A command's operand field is a `Byte`, so
every value it can hold is encodable (`spec/30_encoding.md` rule R85) and `Instr.wf` only says that a command
carries an operand exactly when its format has one; it holds of every command (`Laws/PerInstr.lean`). What a host
may get wrong is an assembly line (rules R89, R90): `AsmLine.wf` has one check per way. An operand that is out of
range FOR ITS COMMAND (`SETVER 4`) is no ill-formed term: it is a legal command that fails with `BadOperand`. -/

namespace Sys2Proof

/-- A command carries an operand exactly when its format is `I` (rules R85, R87). -/
def Instr.wf (i : Instr) : Bool :=
  i.operand?.isSome == (i.mnemonic.format == .i)

/-- A printable ASCII character code (rule R89). -/
def printableCode (n : Nat) : Bool :=
  0x20 ≤ n && n ≤ 0x7E

/-- The numbers an operand stands for: one, or a string's character codes (rules R89, R90). -/
def AsmOperand.values : AsmOperand → List Nat
  | .dec n => [n]
  | .hex n => [n]
  | .chr n => [n]
  | .str ns => ns

/-- Rule R89: an operand "must be in the range 0 to 255". -/
def AsmOperand.inRange (o : AsmOperand) : Bool :=
  o.values.all (· < 256)

/-- Rule R89: a quoted character is a printable one. Rule R90 asks of a string that it be ASCII. -/
def AsmOperand.charsOk : AsmOperand → Bool
  | .dec _ => true
  | .hex _ => true
  | .chr n => printableCode n
  | .str ns => ns.all (· < 0x80)

/-- A double-quoted string stands in pseudo-instructions only (rules R89, R90). -/
def AsmOperand.isString : AsmOperand → Bool
  | .str _ => true
  | _ => false

/-- Rule R89: format `I` takes one operand, format `N` none. -/
def operandCountOk (m : Mnemonic) (os : List AsmOperand) : Bool :=
  match m.format with
  | .n => os.length == 0
  | .i => os.length == 1

/-- Rule R90: a list is one or more operands; only `PLLOAD` and `BUFLOAD` are given a meaning for the empty
list. -/
def pseudoCountOk (p : Pseudo) (os : List AsmOperand) : Bool :=
  match p with
  | .crcbytes | .crc16 => !(os.flatMap (·.values)).isEmpty
  | .plload | .bufload => true

/-- A well-formed assembly line (rules R89, R90). -/
def AsmLine.wf : AsmLine → Bool
  | .blank => true
  | .command m os =>
    operandCountOk m os && os.all (fun o => !o.isString) && os.all (·.inRange) && os.all (·.charsOk)
  | .pseudo p os => pseudoCountOk p os && os.all (·.inRange) && os.all (·.charsOk)

end Sys2Proof
end

