-- ==== Sys2Proof/Decode.lean ====
section
/-! DEFINITION. The encoding of the command word (`spec/30_encoding.md` rules R85, R87, R88): the opcode table by
mask and match, the total decoder, and after them the encoder. The decoder reads the columns `match` and `mask` of
rule R87 and the encoder its column "Opcode", so that their agreement says something. -/

namespace Sys2Proof

/-- A row of rule R87: "A command word selects the command of a row exactly when (w & mask) = match." -/
structure OpRow where
  mnemonic : Mnemonic
  pattern : Word
  mask : Word
  deriving DecidableEq, Repr

/-- System commands (opcodes `0x0n`). -/
def systemRows : List OpRow :=
  [⟨.nop, 0x0000, 0xFFFF⟩,
   ⟨.reset, 0x0100, 0xFFFF⟩,
   ⟨.clrerr, 0x0200, 0xFFFF⟩,
   ⟨.rdstat, 0x0300, 0xFFFF⟩]

/-- CRC generator (opcodes `0x1n`). -/
def crcRows : List OpRow :=
  [⟨.crcinit, 0x1000, 0xFFFF⟩,
   ⟨.crcbyte, 0x1100, 0xFF00⟩,
   ⟨.rdcrc, 0x1200, 0xFFFF⟩]

/-- Frame fields and payload (opcodes `0x2n`). -/
def fieldRows : List OpRow :=
  [⟨.setver, 0x2000, 0xFF00⟩,
   ⟨.setflg, 0x2100, 0xFF00⟩,
   ⟨.setid, 0x2200, 0xFF00⟩,
   ⟨.plclr, 0x2300, 0xFFFF⟩,
   ⟨.plpush, 0x2400, 0xFF00⟩,
   ⟨.setb0, 0x2500, 0xFF00⟩,
   ⟨.rdver, 0x2800, 0xFFFF⟩,
   ⟨.rdflg, 0x2900, 0xFFFF⟩,
   ⟨.rdid, 0x2A00, 0xFFFF⟩,
   ⟨.rdlen, 0x2B00, 0xFFFF⟩,
   ⟨.rdcsum, 0x2C00, 0xFFFF⟩,
   ⟨.rdpl, 0x2D00, 0xFF00⟩,
   ⟨.rdclass, 0x2E00, 0xFFFF⟩,
   ⟨.rdb0, 0x2F00, 0xFFFF⟩]

/-- Wire buffer (opcodes `0x3n`). -/
def bufferRows : List OpRow :=
  [⟨.bufclr, 0x3000, 0xFFFF⟩,
   ⟨.bufpush, 0x3100, 0xFF00⟩,
   ⟨.rdcnt, 0x3200, 0xFFFF⟩,
   ⟨.rdbuf, 0x3300, 0xFF00⟩,
   ⟨.rdbufh, 0x3400, 0xFF00⟩]

/-- Codec (opcodes `0x4n`). -/
def codecRows : List OpRow :=
  [⟨.encode, 0x4000, 0xFFFF⟩,
   ⟨.decode, 0x4100, 0xFFFF⟩,
   ⟨.tag, 0x4200, 0xFF00⟩]

/-- The opcode table of rule R87. -/
def opcodeTable : List OpRow :=
  systemRows ++ crcRows ++ fieldRows ++ bufferRows ++ codecRows

/-- A row selects a word (rule R87). -/
def OpRow.selects (r : OpRow) (w : Word) : Bool :=
  w &&& r.mask == r.pattern

/-- The opcode field `w[15:8]` (rule R85). -/
def opcodeField (w : Word) : Byte :=
  w.extractLsb' 8 8

/-- The operand field `imm8 = w[7:0]` (rule R85). -/
def operandField (w : Word) : Byte :=
  w.extractLsb' 0 8

/-- Why a word is no command (rule R88). Both kinds have the one outcome `IllegalCommand`. -/
inductive DecodeError where
  /-- One of the 227 opcodes that are not in the table, with any `imm8`. -/
  | unknownOpcode (op : Byte)
  /-- One of the 18 format `N` opcodes with `imm8` other than `0x00`. -/
  | operandNotZero (op imm8 : Byte)
  deriving DecidableEq, Repr

/-- The name of the refusal of a word that no row selects (rule R88). -/
def decodeError (w : Word) : DecodeError :=
  if opcodeTable.any (fun r => opcodeField r.pattern == opcodeField w) then
    .operandNotZero (opcodeField w) (operandField w)
  else .unknownOpcode (opcodeField w)

/-- Decoding a command word (rules R87, R88): total, and refusing by name what no row selects. -/
def decode (w : Word) : Except DecodeError Instr :=
  match opcodeTable.find? (fun r => r.selects w) with
  | some r => .ok (r.mnemonic.build (operandField w))
  | none => .error (decodeError w)

/-- The column "Opcode" of rule R87. -/
def Mnemonic.opcode : Mnemonic → Byte
  | .nop => 0x00
  | .reset => 0x01
  | .clrerr => 0x02
  | .rdstat => 0x03
  | .crcinit => 0x10
  | .crcbyte => 0x11
  | .rdcrc => 0x12
  | .setver => 0x20
  | .setflg => 0x21
  | .setid => 0x22
  | .plclr => 0x23
  | .plpush => 0x24
  | .setb0 => 0x25
  | .rdver => 0x28
  | .rdflg => 0x29
  | .rdid => 0x2A
  | .rdlen => 0x2B
  | .rdcsum => 0x2C
  | .rdpl => 0x2D
  | .rdclass => 0x2E
  | .rdb0 => 0x2F
  | .bufclr => 0x30
  | .bufpush => 0x31
  | .rdcnt => 0x32
  | .rdbuf => 0x33
  | .rdbufh => 0x34
  | .encode => 0x40
  | .decode => 0x41
  | .tag => 0x42

/-- The command word of a command (rules R85, R89): `(opcode << 8) | operand` in format `I`, `opcode << 8` in
format `N`. -/
def encode (i : Instr) : Word :=
  i.mnemonic.opcode ++ i.operand?.getD 0x00

/-- The word that `nbits` bits of the opcode table's numbering give (bit 0 the least significant), every bit above
them zero; a command is one 16-bit word (rule R85), so nothing of `w` above bit 15 has a place in it. -/
def tableWord (nbits w : Nat) : Word :=
  BitVec.ofNat 16 (w % 2 ^ nbits)

/-- The instruction the decoder reads from the word whose bits are `w`, numbered as the opcode table numbers
them. -/
def decodeTableWord (nbits w : Nat) : Option Instr :=
  match decode (tableWord nbits w) with
  | .ok i => some i
  | .error _ => none

end Sys2Proof
end

