-- ==== Sys2Proof/Machine/Checksum.lean ====
section
/-! DEFINITION. The one checksum function of the block (`spec/40_crc.md` rules R100 to R103, R109), the byte order of
the trailer (`spec/20_memory.md` rule R52) and the layout of a frame (`spec/30_encoding.md` rule R70). The bit order and the
absent reflection are the spec's rules, marked by it as general knowledge: log entry 6. -/

namespace Sys2Proof.Machine

/-- `crc_bit(c, d)` (rule R100): one shift of the register with feedback `c[15] ^ d`. -/
def crcBit (c : Word) (d : Bool) : Word :=
  let fb := c.getLsbD 15 ^^ d
  let s := c <<< 1
  if fb then s ^^^ Config.crcPoly else s

/-- `crc_step(c, b)` (rule R101): the eight bits of `b`, most significant first. -/
def crcStep (c : Word) (b : Byte) : Word :=
  [7, 6, 5, 4, 3, 2, 1, 0].foldl (fun c k => crcBit c (b.getLsbD k)) c

/-- `crc_step` over the bytes of `m` in increasing order, from accumulator `c` (rules R102, R108 law 1). -/
def crcFeed (c : Word) (m : List Byte) : Word :=
  m.foldl crcStep c

/-- `crc16(m)` (rule R102): no reflection and no final exclusive or. -/
def crc16 (m : List Byte) : Word :=
  crcFeed Config.crcInit m

/-- Bits `[7:0]` of a checksum, the first trailer byte (rule R52). -/
def lowByte (c : Word) : Byte :=
  c.extractLsb' 0 8

/-- Bits `[15:8]` of a checksum, the second trailer byte (rule R52). -/
def highByte (c : Word) : Byte :=
  c.extractLsb' 8 8

/-- The checksum that two trailer bytes carry: `{high, low}` (rules R52, R161). -/
def joinBytes (high low : Byte) : Word :=
  high ++ low

/-- The trailer of checksum `c`, low byte first (rules R52, R78). -/
def trailer (c : Word) : List Byte :=
  [lowByte c, highByte c]

/-- The checksummed bytes of a frame (rule R103): header bytes 0, 1, 2 and the payload. -/
def frameBody (b0 id len : Byte) (payload : List Byte) : List Byte :=
  [b0, id, len] ++ payload

/-- The wire bytes of a frame (rule R70): the checksummed bytes and the trailer. -/
def frameBytes (b0 id len : Byte) (payload : List Byte) : List Byte :=
  frameBody b0 id len payload ++ trailer (crc16 (frameBody b0 id len payload))

end Sys2Proof.Machine
end

