-- ==== Sys2Proof/Machine/State.lean ====
section
/-! DEFINITION. The state of one instance of HGP-FC (`spec/10_state.md`): the ten items of rule R20 and, beside
them, the two ends of the host's command stream, which the host's step-function interface needs inside the state
(log entry 1). Plain data throughout. -/

namespace Sys2Proof.Machine

/-- The outcome codes of rule R201. Codes 12 to 15 are not used. -/
inductive Code where
  /-- 0, success. -/
  | ok
  /-- 1, of the surrounding software, never returned by the block (rule R203). -/
  | invalidInput
  /-- 2, by `DECODE` and `TAG`. -/
  | truncated
  /-- 3, by `DECODE` and `TAG`. -/
  | unsupportedVersion
  /-- 4, by `DECODE`. -/
  | invalidFlags
  /-- 5, by `DECODE`. -/
  | checksumMismatch
  /-- 6, of the surrounding software, never returned by the block (rule R203). -/
  | tooManyFragments
  /-- 7, of the surrounding software, never returned by the block (rule R203). -/
  | incompatibleChunk
  /-- 8, of the surrounding software, never returned by the block (rule R203). -/
  | incompleteTransmission
  /-- 9, by any word that is no command. -/
  | illegalCommand
  /-- 10, by `SETVER`, `SETFLG`, `RDPL`, `RDBUF`, `RDBUFH`. -/
  | badOperand
  /-- 11, by `PLPUSH`, `BUFPUSH`. -/
  | bufferFull
  deriving DecidableEq, Repr

/-- The response to a command, `(code, data)` (rule R86). -/
structure Response where
  code : Code
  data : Word
  deriving DecidableEq, Repr

/-- What the host may present to the block (rules R12, R57, R230): a command word, or the reset input, "an event
delivered from outside the command stream". -/
inductive HostEvent where
  | command (w : Word)
  | resetInput
  deriving DecidableEq, Repr

/-- The two address spaces, both of bytes (rule R50). -/
inductive Store where
  | pl
  | buf
  deriving DecidableEq, Repr

/-- The contents of a byte store: the bytes something has written, by index, indices strictly rising
(`Memory.wf`). An index that is not listed holds an unspecified byte (rules R36, R231). -/
abbrev Memory := List Host.Cell

/-- Why a step stops. No rule of the spec stops the block, and no state that reset leads to meets one of these
(rule R34). Both are safe: the model stops where the spec says nothing. -/
inductive Fault where
  /-- An access to an index that the store does not have (rule R50: `PL` 0 to 254, `BUF` 0 to 259). Raised by the
  store accesses of `Machine/Ops.lean`, and only where `CNT` holds one of the values 261 to 511 that "never
  occur" (rule R29). Safe (log entry 5). -/
  | noSuchIndex (st : Store) (i : Nat)
  /-- A read of a byte that nothing has written, whose value is unspecified (rules R36, R231). Raised by the reads
  of `Machine/Ops.lean`, and only below a fill level that no pushing or codec command has set (rule R34). Safe (log entry 2). -/
  | unwrittenByte (st : Store) (i : Nat)
  deriving DecidableEq, Repr

/-- Why an instruction has no meaning. Every instruction of HGP-FC has one, so nothing raises it. -/
inductive Refusal where
  /-- An arm of `exec` that has no meaning yet, by its mnemonic. Safe. Raised by no arm of this model. -/
  | notModelled (mnemonic : String)
  deriving DecidableEq, Repr

/-- The whole state of one instance (rule R20), and the host's two ends of the command stream. -/
structure State where
  /-- `CRC`, the streaming CRC accumulator (rule R21). -/
  crc : Word
  /-- `VER`, the frame's version (rule R22). -/
  ver : Version
  /-- `FLG`, the frame's flags (rule R23). -/
  flg : Flags
  /-- `TXID`, the frame's transmission id (rule R24). -/
  txid : Byte
  /-- `LEN`, the number of valid bytes in `PL` (rule R25). -/
  len : Byte
  /-- `CSUM`, the frame's checksum (rule R26). -/
  csum : Word
  /-- `PL`, the payload store, indices 0 to 254 (rule R27). -/
  pl : Memory
  /-- `BUF`, the wire buffer, indices 0 to 259 (rule R28). -/
  buf : Memory
  /-- `CNT`, the number of valid bytes in `BUF`, 9 bits (rule R29). -/
  cnt : BitVec 9
  /-- `STATUS.ECODE`, the four implemented bits of `STATUS` (rule R30; log entry 7). -/
  ecode : BitVec 4
  /-- The MODEL's own field: what the host is going to present, the next first. It is the host's stream and no
  buffer of the block (rules R31, R33, R57). Log entry 1. -/
  pending : List HostEvent
  /-- The MODEL's own field: the response to the last command taken, none since a reset input and before the
  first command (rules R86, R200). Log entry 1. -/
  resp : Option Response
  deriving DecidableEq, Repr

/-- The three outcomes of a step of this machine. -/
abbrev Result := Host.Outcome State Fault Refusal

/-- The machine right after reset (rules R36, R231): every register at the value the spec states, no byte of either
store specified, nothing presented by the host and no response given (log entries 1 and 2). -/
def State.reset : State where
  crc := 0x0000
  ver := Config.supportedVersion
  flg := 0x00
  txid := 0x00
  len := 0
  csum := 0x0000
  pl := []
  buf := []
  cnt := 0
  ecode := 0
  pending := []
  resp := none

end Sys2Proof.Machine
end

