-- ==== Sys2Proof/Machine/Flags.lean ====
section
/-! DEFINITION. The flag computations of the block: header byte 0 (`spec/30_encoding.md` rule R71), the flags field
(rules R72 to R76), the numbers of the outcome codes (`spec/60_exceptions.md` rule R201) and the status register
(`spec/10_state.md` rule R30). There are no condition codes (rule R32). -/

namespace Sys2Proof.Machine

/-! ### Header byte 0 -/

/-- `pack_b0(ver, flg)`: the byte with the version in the high bits and the flags in the low bits (rule R71). -/
def packB0 (v : Version) (f : Flags) : Byte :=
  v ++ f

/-- The version of `unpack_b0(b)`: `b[7:6]` (rule R71). -/
def b0Version (b : Byte) : Version :=
  b.extractLsb' 6 2

/-- The flags of `unpack_b0(b)`: `b[5:0]` (rule R71). -/
def b0Flags (b : Byte) : Flags :=
  b.extractLsb' 0 6

/-! ### The flags field -/

/-- `TYPE = f[2:0]` (rule R72). -/
def typeCode (f : Flags) : BitVec 3 :=
  f.extractLsb' 0 3

/-- `CHUNK = f[3]` (rules R72, R74). -/
def chunkFlag (f : Flags) : Bool :=
  f.getLsbD 3

/-- `ACK = f[4]` (rules R72, R74). -/
def ackFlag (f : Flags) : Bool :=
  f.getLsbD 4

/-- The reserved bit `f[5]` (rules R72, R74). -/
def reservedFlag (f : Flags) : Bool :=
  f.getLsbD 5

/-- `flags_ok(f)`: a type and no reserved bit (rule R75). -/
def flagsOk (f : Flags) : Bool :=
  typeCode f != 0 && !reservedFlag f

/-- `TERM`: the communication-end type together with the chunk bit (rule R76). -/
def isTerminator (f : Flags) : Bool :=
  typeCode f == 7 && chunkFlag f

/-- `COMPLETE`, the source's `isComplete` of a frame that exists (rule R76). -/
def isComplete (f : Flags) : Bool :=
  !chunkFlag f || isTerminator f

/-- `fclass(f) = {COMPLETE, TERM, FLAGS_OK, ACK, CHUNK, TYPE}` (rule R76). -/
def fclass (f : Flags) : Byte :=
  BitVec.ofBool (isComplete f) ++ BitVec.ofBool (isTerminator f) ++ BitVec.ofBool (flagsOk f) ++
    BitVec.ofBool (ackFlag f) ++ BitVec.ofBool (chunkFlag f) ++ typeCode f

/-! ### Outcome codes and the status register -/

/-- The number of an outcome code (rule R201). -/
def codeBits : Code → BitVec 4
  | .ok => 0
  | .invalidInput => 1
  | .truncated => 2
  | .unsupportedVersion => 3
  | .invalidFlags => 4
  | .checksumMismatch => 5
  | .tooManyFragments => 6
  | .incompatibleChunk => 7
  | .incompleteTransmission => 8
  | .illegalCommand => 9
  | .badOperand => 10
  | .bufferFull => 11

/-- `STATUS` as it reads: `ECODE` in bits `[3:0]`, bits `[15:4]` zero (rules R30, R193). -/
def statusWord (s : State) : Word :=
  s.ecode.zeroExtend 16

end Sys2Proof.Machine
end

