-- ==== Sys2Proof/Machine/Memory.lean ====
section
/-! DEFINITION. A byte store as a list of cells in one canonical form (`spec/20_memory.md` rule R50;
`spec/10_state.md` rules R27, R28, R36). -/

namespace Sys2Proof.Machine

/-- The canonical form: indices strictly rising, so that stores with equal contents are equal lists. An unlisted
index reads as no value, so no cell repeats what an unlisted index reads as. -/
def Memory.wf (m : Memory) : Bool :=
  decide (m.Pairwise (fun c d => c.1 < d.1))

/-- The byte at an index; none where nothing has written one (its value is unspecified: rules R36, R231; log
entry 2). -/
def Memory.read : Memory → Nat → Option Byte
  | [], _ => none
  | (k, v) :: m, i => if k = i then some v else Memory.read m i

/-- One byte written; every other index as before. -/
def Memory.write : Memory → Nat → Byte → Memory
  | [], i, b => [(i, b)]
  | (k, v) :: m, i, b =>
    if i < k then (i, b) :: (k, v) :: m
    else if i = k then (i, b) :: m
    else (k, v) :: Memory.write m i b

end Sys2Proof.Machine
end

