-- ==== Sys2Proof/Machine/Operands.lean ====
section
/-! DEFINITION. The operand forms of `spec/30_encoding.md` rule R87 (column "Operand") and rule R85: `imm8` is used as
it stands, zero-extended wherever a wider value is needed. Each form answers none exactly where the command's rule
says `fail BadOperand`. -/

namespace Sys2Proof.Machine

/-- A version operand: `imm8 < 2^VW` (rule R120). -/
def versionOperand (imm8 : Byte) : Option Version :=
  if imm8.toNat < 2 ^ Config.vw then some (imm8.extractLsb' 0 2) else none

/-- A flags operand: `imm8 < 2^FW` (rule R121). -/
def flagsOperand (imm8 : Byte) : Option Flags :=
  if imm8.toNat < 2 ^ Config.fw then some (imm8.extractLsb' 0 6) else none

/-- A payload index: `imm8 < LEN` (rule R131). -/
def payloadIndex (imm8 : Byte) (s : State) : Option Nat :=
  if imm8.toNat < s.len.toNat then some imm8.toNat else none

/-- A buffer index: `imm8 < CNT` (rule R153). -/
def bufferIndex (imm8 : Byte) (s : State) : Option Nat :=
  if imm8.toNat < s.cnt.toNat then some imm8.toNat else none

/-- A buffer index above 255: `imm8 <= 3` and `256 + imm8 < CNT`, the index `256 + imm8` (rule R154). -/
def bufferIndexHigh (imm8 : Byte) (s : State) : Option Nat :=
  if imm8.toNat ≤ 3 ∧ 256 + imm8.toNat < s.cnt.toNat then some (256 + imm8.toNat) else none

/-- `zext_16(v)` (rule R11): how every read command gives its value (rule R86). -/
def zext16 {n : Nat} (v : BitVec n) : Word :=
  v.zeroExtend 16

end Sys2Proof.Machine
end

