-- ==== Sys2Proof/Machine/Ops.lean ====
section
/-! DEFINITION. The operations the meanings share: the accesses to the two stores (`spec/20_memory.md` rules R50,
R56), the responses (`spec/30_encoding.md` rule R86), the one failure entry (`spec/60_exceptions.md` rule R207) and
the reset (`spec/70_reset_and_hazards.md` rule R230). There is no return from a failure (rule R209). -/

namespace Sys2Proof.Machine

/-! ### The two stores -/

/-- The number of bytes of a store (rules R9, R27, R28, R50). -/
def storeSize : Store → Nat
  | .pl => Config.maxFramePayload
  | .buf => Config.maxFrameBytes

/-- The contents of a store. -/
def storeOf (st : Store) (s : State) : Memory :=
  match st with
  | .pl => s.pl
  | .buf => s.buf

/-- The state with other contents of one store. -/
def setStore (st : Store) (m : Memory) (s : State) : State :=
  match st with
  | .pl => { s with pl := m }
  | .buf => { s with buf := m }

/-- `PL[i]` or `BUF[i]` (rule R11). An index the store does not have and a byte nothing has written are faults; no
reachable state meets either (rule R34; log entries 2 and 5). -/
def readByte (st : Store) (i : Nat) (s : State) : Except Fault Byte :=
  if i < storeSize st then
    match (storeOf st s).read i with
    | some b => .ok b
    | none => .error (.unwrittenByte st i)
  else .error (.noSuchIndex st i)

/-- `PL[i] <- b` or `BUF[i] <- b` (rule R11). -/
def writeByte (st : Store) (i : Nat) (b : Byte) (s : State) : Except Fault State :=
  if i < storeSize st then .ok (setStore st ((storeOf st s).write i b) s)
  else .error (.noSuchIndex st i)

/-- The `n` bytes from index `i` up, in increasing order (rule R11's `BUF[a..b]` with `n = b - a + 1`). -/
def readBytes (st : Store) (i : Nat) : Nat → State → Except Fault (List Byte)
  | 0, _ => .ok []
  | n + 1, s =>
    match readByte st i s with
    | .error e => .error e
    | .ok b =>
      match readBytes st (i + 1) n s with
      | .error e => .error e
      | .ok bs => .ok (b :: bs)

/-- The bytes `bs` written from index `i` up. -/
def writeBytes (st : Store) (i : Nat) : List Byte → State → Except Fault State
  | [], s => .ok s
  | b :: bs, s =>
    match writeByte st i b s with
    | .error e => .error e
    | .ok s' => writeBytes st (i + 1) bs s'

/-- Go on with what a store access gave, or stop with its fault. -/
def orFault {α : Type} (r : Except Fault α) (k : α → Result) : Result :=
  match r with
  | .ok a => k a
  | .error e => .fault e

/-! ### Responses -/

/-- The state with a response given (rule R86). -/
def respond (c : Code) (data : Word) (s : State) : State :=
  { s with resp := some ⟨c, data⟩ }

/-- The end of a command that does not say `return`: `(OK, 0x0000)` (rule R11). -/
def done (s : State) : Result :=
  .next (respond .ok 0x0000 s)

/-- `return v`: `(OK, v)` (rule R11). -/
def answer (v : Word) (s : State) : Result :=
  .next (respond .ok v s)

/-! ### Failure entry -/

/-- Failure entry (rule R207), on the state BEFORE the command: nothing changes but `ECODE`, which takes the code if
it is 0 and keeps its value otherwise, and the response is `(c, 0x0000)`. Nothing else is saved (rule R208), and
there is nothing to return from (rule R209). -/
def takeFailure (c : Code) (s : State) : State :=
  respond c 0x0000 { s with ecode := if s.ecode = 0 then codeBits c else s.ecode }

/-- `fail <Name>` (rule R11). -/
def fail (c : Code) (s : State) : Result :=
  .next (takeFailure c s)

/-- Go on with an operand that is in range, or `fail BadOperand` (rules R120, R121, R131, R153, R154). -/
def orBadOperand {α : Type} (r : Option α) (s : State) (k : α → Result) : Result :=
  match r with
  | some a => k a
  | none => fail .badOperand s

/-! ### Reset -/

/-- Both sources of reset (rule R230): the reset state, whatever the state before. What the host is still going to
present is the host's and stays; no response is given here (log entries 1 and 3). -/
def resetBlock (s : State) : State :=
  { State.reset with pending := s.pending }

end Sys2Proof.Machine
end

