-- ==== Sys2Proof/Machine/Codec.lean ====
section
/-! DEFINITION. The frame codec commands (`spec/43_codec.md` rules R160 to R162). Every failure is taken on the state
before the command (rule R207), so what a command did before its failing check is discarded. -/

namespace Sys2Proof.Machine

/-- `ENCODE` (rule R160): it validates nothing and never fails. The checksum is that of rule R103. -/
def execEncode (s : State) : Result :=
  orFault (readBytes .pl 0 s.len.toNat s) fun payload =>
    let body := frameBody (packB0 s.ver s.flg) s.txid s.len payload
    orFault (writeBytes .buf 0 (body ++ trailer (crc16 body)) s) fun t =>
      done { t with cnt := BitVec.ofNat 9 (Config.minFrameBytes + s.len.toNat), csum := crc16 body }

/-- Steps 5 to 8 of `DECODE` (rule R161), for the header bytes `b0`, `id`, `l` that steps 3 and 4 have passed: the
extent, the checksum, and the field registers and `PL` written. -/
def decodeExtent (b0 id l : Byte) (s : State) : Result :=
  if s.cnt.toNat < Config.minFrameBytes + l.toNat then fail .truncated s
  else
    orFault (readBytes .buf 0 (Config.headerBytes + l.toNat) s) fun body =>
    orFault (readByte .buf (3 + l.toNat) s) fun low =>
    orFault (readByte .buf (4 + l.toNat) s) fun high =>
      if joinBytes high low ≠ crc16 body then fail .checksumMismatch s
      else
        orFault (writeBytes .pl 0 (body.drop Config.headerBytes) s) fun t =>
          done { t with ver := b0Version b0, flg := b0Flags b0, txid := id, len := l, csum := joinBytes high low }

/-- `DECODE` (rule R161): the checks in the rule's order, the first that fails ends the command (rule R205). Bytes at
index `5 + L` and above are ignored. -/
def execDecode (s : State) : Result :=
  if s.cnt.toNat < Config.minFrameBytes then fail .truncated s
  else
    orFault (readByte .buf 0 s) fun b0 =>
    orFault (readByte .buf 1 s) fun id =>
    orFault (readByte .buf 2 s) fun l =>
      if b0Version b0 ≠ Config.supportedVersion then fail .unsupportedVersion s
      else if flagsOk (b0Flags b0) = false then fail .invalidFlags s
      else decodeExtent b0 id l s

/-- `TAG imm8` (rule R162): the trailer is found from the buffer's end, and nothing but the length and the version is
tested (rule R206). -/
def execTag (imm8 : Byte) (s : State) : Result :=
  if s.cnt.toNat < Config.minFrameBytes then fail .truncated s
  else
    orFault (readByte .buf 0 s) fun b0 =>
      if b0Version b0 ≠ Config.supportedVersion then fail .unsupportedVersion s
      else
        orFault (writeByte .buf 1 imm8 s) fun t =>
        orFault (readBytes .buf 0 (s.cnt.toNat - Config.trailerBytes) t) fun body =>
        orFault (writeBytes .buf (s.cnt.toNat - Config.trailerBytes) (trailer (crc16 body)) t) fun u =>
          done u

end Sys2Proof.Machine
end

