-- ==== Sys2Proof/Machine/CrcGenerator.lean ====
section
/-! DEFINITION. The commands of the streaming CRC generator (`spec/40_crc.md` section 4). -/

namespace Sys2Proof.Machine

/-- `CRCINIT` (rule R105). -/
def execCrcinit (s : State) : Result :=
  done { s with crc := Config.crcInit }

/-- `CRCBYTE imm8` (rule R106). -/
def execCrcbyte (imm8 : Byte) (s : State) : Result :=
  done { s with crc := crcStep s.crc imm8 }

/-- `RDCRC` (rule R107). -/
def execRdcrc (s : State) : Result :=
  answer s.crc s

end Sys2Proof.Machine
end

