-- ==== Sys2Proof/Machine/FrameFields.lean ====
section
/-! DEFINITION. The frame field and payload commands (`spec/41_frame_fields.md`). -/

namespace Sys2Proof.Machine

/-- `SETVER imm8` (rule R120). -/
def execSetver (imm8 : Byte) (s : State) : Result :=
  orBadOperand (versionOperand imm8) s fun v => done { s with ver := v }

/-- `SETFLG imm8` (rule R121): the value is not tested with `flags_ok`. -/
def execSetflg (imm8 : Byte) (s : State) : Result :=
  orBadOperand (flagsOperand imm8) s fun f => done { s with flg := f }

/-- `SETID imm8` (rule R122). -/
def execSetid (imm8 : Byte) (s : State) : Result :=
  done { s with txid := imm8 }

/-- `SETB0 imm8` (rule R123): no validation. -/
def execSetb0 (imm8 : Byte) (s : State) : Result :=
  done { s with ver := b0Version imm8, flg := b0Flags imm8 }

/-- `PLCLR` (rule R124): the bytes of `PL` are not erased. -/
def execPlclr (s : State) : Result :=
  done { s with len := 0 }

/-- `PLPUSH imm8` (rule R125). -/
def execPlpush (imm8 : Byte) (s : State) : Result :=
  if s.len.toNat = Config.maxFramePayload then fail .bufferFull s
  else orFault (writeByte .pl s.len.toNat imm8 s) fun t => done { t with len := s.len + 1 }

/-- `RDVER` (rule R126). -/
def execRdver (s : State) : Result :=
  answer (zext16 s.ver) s

/-- `RDFLG` (rule R127). -/
def execRdflg (s : State) : Result :=
  answer (zext16 s.flg) s

/-- `RDID` (rule R128). -/
def execRdid (s : State) : Result :=
  answer (zext16 s.txid) s

/-- `RDLEN` (rule R129). -/
def execRdlen (s : State) : Result :=
  answer (zext16 s.len) s

/-- `RDCSUM` (rule R130). -/
def execRdcsum (s : State) : Result :=
  answer s.csum s

/-- `RDPL imm8` (rule R131). -/
def execRdpl (imm8 : Byte) (s : State) : Result :=
  orBadOperand (payloadIndex imm8 s) s fun i =>
    orFault (readByte .pl i s) fun b => answer (zext16 b) s

/-- `RDCLASS` (rule R132). -/
def execRdclass (s : State) : Result :=
  answer (zext16 (fclass s.flg)) s

/-- `RDB0` (rule R133). -/
def execRdb0 (s : State) : Result :=
  answer (zext16 (packB0 s.ver s.flg)) s

end Sys2Proof.Machine
end

