-- ==== Sys2Proof/Machine/System.lean ====
section
/-! DEFINITION. The system commands (`spec/44_system.md`). -/

namespace Sys2Proof.Machine

/-- `NOP` (rule R190). -/
def execNop (s : State) : Result :=
  done s

/-- `RESET` (rule R191): the effect of the reset input, and the response `(OK, 0x0000)`. -/
def execReset (s : State) : Result :=
  done (resetBlock s)

/-- `CLRERR` (rule R192). -/
def execClrerr (s : State) : Result :=
  done { s with ecode := 0 }

/-- `RDSTAT` (rule R193): reading does not clear. -/
def execRdstat (s : State) : Result :=
  answer (statusWord s) s

end Sys2Proof.Machine
end

