-- ==== Sys2Proof/Machine/WireBuffer.lean ====
section
/-! DEFINITION. The wire buffer commands (`spec/42_wire_buffer.md`). -/

namespace Sys2Proof.Machine

/-- `BUFCLR` (rule R150): the bytes of `BUF` are not erased. -/
def execBufclr (s : State) : Result :=
  done { s with cnt := 0 }

/-- `BUFPUSH imm8` (rule R151). -/
def execBufpush (imm8 : Byte) (s : State) : Result :=
  if s.cnt.toNat = Config.maxFrameBytes then fail .bufferFull s
  else orFault (writeByte .buf s.cnt.toNat imm8 s) fun t => done { t with cnt := s.cnt + 1 }

/-- `RDCNT` (rule R152). -/
def execRdcnt (s : State) : Result :=
  answer (zext16 s.cnt) s

/-- `RDBUF imm8` (rule R153). -/
def execRdbuf (imm8 : Byte) (s : State) : Result :=
  orBadOperand (bufferIndex imm8 s) s fun i =>
    orFault (readByte .buf i s) fun b => answer (zext16 b) s

/-- `RDBUFH imm8` (rule R154). -/
def execRdbufh (imm8 : Byte) (s : State) : Result :=
  orBadOperand (bufferIndexHigh imm8 s) s fun i =>
    orFault (readByte .buf i s) fun b => answer (zext16 b) s

end Sys2Proof.Machine
end

