-- ==== Sys2Proof/Machine/Dispatch.lean ====
section
/-! DEFINITION. The meaning of every command, one arm per constructor of `Instr`. -/

namespace Sys2Proof.Machine

def exec (i : Instr) (s : State) : Host.Outcome State Fault Refusal :=
  match i with
  | .nop => Sys2Proof.Machine.execNop s
  | .reset => Sys2Proof.Machine.execReset s
  | .clrerr => Sys2Proof.Machine.execClrerr s
  | .rdstat => Sys2Proof.Machine.execRdstat s
  | .crcinit => Sys2Proof.Machine.execCrcinit s
  | .crcbyte imm8 => Sys2Proof.Machine.execCrcbyte imm8 s
  | .rdcrc => Sys2Proof.Machine.execRdcrc s
  | .setver imm8 => Sys2Proof.Machine.execSetver imm8 s
  | .setflg imm8 => Sys2Proof.Machine.execSetflg imm8 s
  | .setid imm8 => Sys2Proof.Machine.execSetid imm8 s
  | .plclr => Sys2Proof.Machine.execPlclr s
  | .plpush imm8 => Sys2Proof.Machine.execPlpush imm8 s
  | .setb0 imm8 => Sys2Proof.Machine.execSetb0 imm8 s
  | .rdver => Sys2Proof.Machine.execRdver s
  | .rdflg => Sys2Proof.Machine.execRdflg s
  | .rdid => Sys2Proof.Machine.execRdid s
  | .rdlen => Sys2Proof.Machine.execRdlen s
  | .rdcsum => Sys2Proof.Machine.execRdcsum s
  | .rdpl imm8 => Sys2Proof.Machine.execRdpl imm8 s
  | .rdclass => Sys2Proof.Machine.execRdclass s
  | .rdb0 => Sys2Proof.Machine.execRdb0 s
  | .bufclr => Sys2Proof.Machine.execBufclr s
  | .bufpush imm8 => Sys2Proof.Machine.execBufpush imm8 s
  | .rdcnt => Sys2Proof.Machine.execRdcnt s
  | .rdbuf imm8 => Sys2Proof.Machine.execRdbuf imm8 s
  | .rdbufh imm8 => Sys2Proof.Machine.execRdbufh imm8 s
  | .encode => Sys2Proof.Machine.execEncode s
  | .decode => Sys2Proof.Machine.execDecode s
  | .tag imm8 => Sys2Proof.Machine.execTag imm8 s

end Sys2Proof.Machine
end

