-- ==== Sys2Proof/Machine/Step.lean ====
section
/-! DEFINITION. One step of the machine (`spec/00_scope.md` rule R12): the block takes the next thing the host
presents. It fetches nothing from its stores (`spec/10_state.md` rule R31, `spec/20_memory.md` rule R61). -/

namespace Sys2Proof.Machine

/-- One command word (rules R88, R204): decoded first; a word that is no command is `IllegalCommand` and nothing else
about it is examined. -/
def stepCommand (w : Word) (s : State) : Result :=
  match decode w with
  | .ok i => exec i s
  | .error _ => fail .illegalCommand s

/-- One step (rules R12, R57, R230): the next command word or reset input of the host's stream. With nothing
presented, nothing changes (rule R211; log entry 1). -/
def step (s : State) : Host.Outcome State Fault Refusal :=
  match s.pending with
  | [] => .next s
  | .command w :: rest => stepCommand w { s with pending := rest }
  | .resetInput :: rest => .next (resetBlock { s with pending := rest })

/-- The state in which the host presents the word of an opcode-table row next (log entry 4). -/
def State.withFetchWord (s : State) (nbits w : Nat) : State :=
  { s with pending := .command (tableWord nbits w) :: s.pending }

end Sys2Proof.Machine
end

