-- ==== Sys2Proof/Machine/Assembly.lean ====
section
/-! DEFINITION. The assembler of `spec/30_encoding.md` rules R89 and R90: an assembly line's commands, and the reading
of a line of text, given as its characters. It is no part of the block; hosts write programs in it. What the two rules do not settle is
log entry 10. -/

namespace Sys2Proof.Machine

/-- The bytes a list of operands stands for (rules R89, R90). -/
def operandBytes (os : List AsmOperand) : List Byte :=
  (os.flatMap (·.values)).map (BitVec.ofNat 8)

/-- The commands a pseudo-instruction is shorthand for (rule R90). -/
def expandPseudo (p : Pseudo) (bs : List Byte) : List Instr :=
  match p with
  | .crcbytes => bs.map .crcbyte
  | .crc16 => [.crcinit] ++ bs.map .crcbyte ++ [.rdcrc]
  | .plload => [.plclr] ++ bs.map .plpush
  | .bufload => [.bufclr] ++ bs.map .bufpush

/-- The commands of an assembly line, each a separate step (rules R89, R90); none where the line is not well
formed. -/
def assemble (l : AsmLine) : Option (List Instr) :=
  if l.wf then
    match l with
    | .blank => some []
    | .command m os => some [m.build ((operandBytes os).headD 0x00)]
    | .pseudo p os => some (expandPseudo p (operandBytes os))
  else none

/-! ### The text of a line -/

/-- The names of rule R87 in capitals (rule R89). -/
def mnemonicName : Mnemonic → List Char
  | .nop => ['N', 'O', 'P']
  | .reset => ['R', 'E', 'S', 'E', 'T']
  | .clrerr => ['C', 'L', 'R', 'E', 'R', 'R']
  | .rdstat => ['R', 'D', 'S', 'T', 'A', 'T']
  | .crcinit => ['C', 'R', 'C', 'I', 'N', 'I', 'T']
  | .crcbyte => ['C', 'R', 'C', 'B', 'Y', 'T', 'E']
  | .rdcrc => ['R', 'D', 'C', 'R', 'C']
  | .setver => ['S', 'E', 'T', 'V', 'E', 'R']
  | .setflg => ['S', 'E', 'T', 'F', 'L', 'G']
  | .setid => ['S', 'E', 'T', 'I', 'D']
  | .plclr => ['P', 'L', 'C', 'L', 'R']
  | .plpush => ['P', 'L', 'P', 'U', 'S', 'H']
  | .setb0 => ['S', 'E', 'T', 'B', '0']
  | .rdver => ['R', 'D', 'V', 'E', 'R']
  | .rdflg => ['R', 'D', 'F', 'L', 'G']
  | .rdid => ['R', 'D', 'I', 'D']
  | .rdlen => ['R', 'D', 'L', 'E', 'N']
  | .rdcsum => ['R', 'D', 'C', 'S', 'U', 'M']
  | .rdpl => ['R', 'D', 'P', 'L']
  | .rdclass => ['R', 'D', 'C', 'L', 'A', 'S', 'S']
  | .rdb0 => ['R', 'D', 'B', '0']
  | .bufclr => ['B', 'U', 'F', 'C', 'L', 'R']
  | .bufpush => ['B', 'U', 'F', 'P', 'U', 'S', 'H']
  | .rdcnt => ['R', 'D', 'C', 'N', 'T']
  | .rdbuf => ['R', 'D', 'B', 'U', 'F']
  | .rdbufh => ['R', 'D', 'B', 'U', 'F', 'H']
  | .encode => ['E', 'N', 'C', 'O', 'D', 'E']
  | .decode => ['D', 'E', 'C', 'O', 'D', 'E']
  | .tag => ['T', 'A', 'G']

/-- The names of rule R90. -/
def pseudoName : Pseudo → List Char
  | .crcbytes => ['C', 'R', 'C', 'B', 'Y', 'T', 'E', 'S']
  | .crc16 => ['C', 'R', 'C', '1', '6']
  | .plload => ['P', 'L', 'L', 'O', 'A', 'D']
  | .bufload => ['B', 'U', 'F', 'L', 'O', 'A', 'D']

/-- Every mnemonic of rule R87. -/
def allMnemonics : List Mnemonic :=
  opcodeTable.map (·.mnemonic)

/-- A token of a line. -/
inductive Token where
  | name (cs : List Char)
  | operand (o : AsmOperand)
  deriving DecidableEq, Repr

/-- The value of a digit of a base up to 16, none where the character is no digit of it. -/
def digitValue (base : Nat) (c : Char) : Option Nat :=
  let n := c.toNat
  let v := if 0x30 ≤ n ∧ n ≤ 0x39 then n - 0x30
    else if 0x41 ≤ n ∧ n ≤ 0x46 then n - 0x37
    else if 0x61 ≤ n ∧ n ≤ 0x66 then n - 0x57
    else base
  if v < base then some v else none

/-- A number from its digits, the most significant first; none for no digit or a character that is none. -/
def digitsValue (base : Nat) (cs : List Char) : Option Nat :=
  if cs.isEmpty then none
  else cs.foldl (fun a c => a.bind fun n => (digitValue base c).map (base * n + ·)) (some 0)

/-- A word of a line that is no quoted operand: a number, or else a name (rule R89). -/
def wordToken (cs : List Char) : Option Token :=
  match cs with
  | [] => none
  | '0' :: 'x' :: hs => (digitsValue 16 hs).map (fun n => .operand (.hex n))
  | c :: _ =>
    if (digitValue 10 c).isSome then (digitsValue 10 cs).map (fun n => .operand (.dec n))
    else some (.name cs)

/-- The characters that end a word: a space and the `;` of a comment (rule R89). -/
def endsWord (c : Char) : Bool :=
  c == ' ' || c == ';'

/-- A quoted operand ends at a space, at a comment, or with the line. -/
def atWordEnd : List Char → Bool
  | [] => true
  | c :: _ => endsWord c

/-- The tokens of a line, read with fuel (each round reads a character at least); none for a text that rule R89 gives
no meaning. The model's choice (DESIGN CHOICE, log entry 10): spaces before the mnemonic and after the last part of a line
are passed over, as are further spaces between two parts, and a `;` may follow a part with no space. Inside single or
double quotes a `;` is the character and starts no comment, and a space is the character; the character between single
quotes may be a single quote, and a string ends at the next double quote. -/
def tokens : Nat → List Char → Option (List Token)
  | 0, _ => none
  | _ + 1, [] => some []
  | k + 1, c :: cs =>
    if c == ';' then some []
    else if c == ' ' then tokens k cs
    else if c == '\'' then
      match cs with
      | q :: '\'' :: rest =>
        if atWordEnd rest then (tokens k rest).map (.operand (.chr q.toNat) :: ·) else none
      | _ => none
    else if c == '"' then
      match cs.dropWhile (· != '"') with
      | _ :: rest =>
        if atWordEnd rest then
          (tokens k rest).map (.operand (.str ((cs.takeWhile (· != '"')).map (·.toNat))) :: ·)
        else none
      | [] => none
    else
      (wordToken (c :: cs.takeWhile (!endsWord ·))).bind fun t =>
        (tokens k (cs.dropWhile (!endsWord ·))).map (t :: ·)

/-- The operands among tokens; none where a name stands. -/
def operandsOf : List Token → Option (List AsmOperand)
  | [] => some []
  | .operand o :: ts => (operandsOf ts).map (o :: ·)
  | .name _ :: _ => none

/-- A line of text as a term (rules R89, R90): the name first, then its operands. The model's choice (DESIGN CHOICE, log
entry 10): a line that is empty, or holds spaces or a comment alone, is a line without a command. -/
def parseLine (cs : List Char) : Option AsmLine :=
  match tokens (cs.length + 1) cs with
  | none => none
  | some [] => some .blank
  | some (.operand _ :: _) => none
  | some (.name n :: ts) =>
    (operandsOf ts).bind fun os =>
      match allMnemonics.find? (fun m => mnemonicName m == n) with
      | some m => some (.command m os)
      | none => ([.crcbytes, .crc16, .plload, .bufload].find? (fun p => pseudoName p == n)).map (.pseudo · os)

/-- The command words of a line of assembly text (rules R89, R90). -/
def assembleText (cs : List Char) : Option (List Word) :=
  ((parseLine cs).bind assemble).map (·.map encode)

end Sys2Proof.Machine
end

