-- ==== Sys2Proof/Machine/Platform.lean ====
section
/-! DEFINITION. Several instances on one platform (`spec/20_memory.md` rule R59): each has its own state and its own
command stream, and a step of the platform is a step of one of them (log entry 9). -/

namespace Sys2Proof.Machine

/-- A step of instance `k` of a platform; the other instances are as before (rule R59). There is no instance beyond
the list, so a step of one changes nothing. -/
def stepAt (k : Nat) (p : List State) : Host.Outcome (List State) Fault Refusal :=
  match p[k]? with
  | none => .next p
  | some s =>
    match step s with
    | .next t => .next (p.set k t)
    | .fault f => .fault f
    | .refused r => .refused r

end Sys2Proof.Machine
end

