-- ==== Sys2Proof/Safety.lean ====
section
/-! DEFINITION. The terms statements use: the invariant of a run, a state as a host sees it, what the valid bytes of
the stores are, the frame format written out on lists of bytes with plain arithmetic (beside, not by, the machine's own
bit operations), and the state after a failure. -/

namespace Sys2Proof.Machine

/-! ### The invariant -/

/-- Every listed index of a store is one the store has (rule R50). -/
abbrev Memory.within (m : Memory) (size : Nat) : Prop :=
  ∀ c ∈ m, c.1 < size

/-- Every byte below a fill level has been written (rule R34). -/
abbrev Memory.filled (m : Memory) (n : Nat) : Prop :=
  ∀ i < n, (m.read i).isSome = true

/-- The codes the block can produce (rules R30, R203): `OK` and the seven failures it raises. -/
abbrev blockCodes : List Code :=
  [.ok, .truncated, .unsupportedVersion, .invalidFlags, .checksumMismatch, .illegalCommand, .badOperand, .bufferFull]

/-- The invariant of rule R34, with the stores' own form: `CNT` at most 260; every byte below a fill level written;
`ECODE` one of 0, 2, 3, 4, 5, 9, 10, 11; both stores in their canonical form and inside their index ranges. (`LEN` at
most 255, `VER < 2^VW` and `FLG < 2^FW` hold by the registers' widths.) -/
abbrev State.Inv (s : State) : Prop :=
  s.cnt.toNat ≤ 260 ∧
  s.pl.filled s.len.toNat ∧ s.buf.filled s.cnt.toNat ∧
  s.pl.wf = true ∧ s.buf.wf = true ∧
  s.pl.within 255 ∧ s.buf.within 260 ∧
  s.ecode.toNat ∈ [0, 2, 3, 4, 5, 9, 10, 11]

/-! ### A state as a host sees it -/

/-- Two states that no command tells apart (rules R27, R28, R36): every register, the valid bytes of both stores, the
host's stream and the response agree; bytes at and above the fill levels may differ. -/
structure State.SameVisible (s t : State) : Prop where
  crc : s.crc = t.crc
  ver : s.ver = t.ver
  flg : s.flg = t.flg
  txid : s.txid = t.txid
  len : s.len = t.len
  csum : s.csum = t.csum
  cnt : s.cnt = t.cnt
  ecode : s.ecode = t.ecode
  pending : s.pending = t.pending
  resp : s.resp = t.resp
  pl : ∀ i < s.len.toNat, s.pl.read i = t.pl.read i
  buf : ∀ i < s.cnt.toNat, s.buf.read i = t.buf.read i

/-- The bytes `p` stand in a store from index 0 up. -/
def Memory.Holds (m : Memory) (p : List Byte) : Prop :=
  ∀ i, ∀ h : i < p.length, m.read i = some p[i]

/-- `PL[0 .. LEN-1]` is exactly `p` (rule R27). -/
def State.HoldsPayload (s : State) (p : List Byte) : Prop :=
  p.length = s.len.toNat ∧ s.pl.Holds p

/-- `BUF[0 .. CNT-1]` is exactly `m` (rule R28). -/
def State.HoldsWire (s : State) (m : List Byte) : Prop :=
  m.length = s.cnt.toNat ∧ s.buf.Holds m

/-! ### Outcomes -/

/-- The state after a failure of code `c` with number `n` (rule R207). -/
def State.afterFailure (s : State) (c : Code) (n : BitVec 4) : State :=
  { s with ecode := if s.ecode = 0 then n else s.ecode, resp := some ⟨c, 0x0000⟩ }

/-- The command `i` runs in state `s` and its response carries code `c`. -/
def AnswersCode (i : Instr) (s : State) (c : Code) : Prop :=
  ∃ t, exec i s = .next t ∧ t.resp.map (·.code) = some c

/-- The commands issued one after another, each answered before the next is taken (rules R57, R86). -/
def execAll : List Instr → State → Result
  | [], s => .next s
  | i :: is, s =>
    match exec i s with
    | .next t => execAll is t
    | .fault f => .fault f
    | .refused r => .refused r

/-! ### The frame format on lists of bytes -/

/-- The checksummed bytes of a frame (rules R70, R71, R103), byte 0 as `ver * 2^6 + flg`. -/
def wireBody (ver : Version) (flg : Flags) (id : Byte) (payload : List Byte) : List Byte :=
  [BitVec.ofNat 8 (ver.toNat * 64 + flg.toNat), id, BitVec.ofNat 8 payload.length] ++ payload

/-- Checksummed bytes followed by their checksum, low byte first (rules R52, R78). -/
def wireImage (body : List Byte) : List Byte :=
  body ++ [BitVec.ofNat 8 ((crc16 body).toNat % 256), BitVec.ofNat 8 ((crc16 body).toNat / 256)]

/-- A decoded frame (rule R161, step 8). -/
structure Frame where
  ver : Version
  flg : Flags
  id : Byte
  payload : List Byte
  csum : Word
  deriving DecidableEq, Repr

/-- The first frame of a byte sequence, or the failure of the first check it fails, in the order of rule R161. -/
def readFrame (m : List Byte) : Except Code Frame :=
  match m with
  | b0 :: id :: l :: rest =>
    if rest.length < 2 then .error .truncated
    else if b0.toNat / 64 ≠ 0 then .error .unsupportedVersion
    else if b0.toNat % 8 = 0 ∨ b0.toNat / 32 % 2 = 1 then .error .invalidFlags
    else if rest.length < l.toNat + 2 then .error .truncated
    else
      let ex := crc16 (b0 :: id :: l :: rest.take l.toNat)
      if (rest.getD l.toNat 0).toNat + 256 * (rest.getD (l.toNat + 1) 0).toNat ≠ ex.toNat then
        .error .checksumMismatch
      else .ok ⟨0, BitVec.ofNat 6 (b0.toNat % 64), id, rest.take l.toNat, ex⟩
  | _ => .error .truncated

/-- A buffer with its id byte replaced and its last two bytes the checksum of all before them (rule R162). -/
def tagBytes (id : Byte) (m : List Byte) : List Byte :=
  wireImage ((m.set 1 id).take (m.length - 2))

/-- A byte sequence with bit `k` of byte `j` inverted (rule R165). -/
def flipBit (m : List Byte) (j k : Nat) : List Byte :=
  m.set j (m.getD j 0 ^^^ (1#8 <<< k))

end Sys2Proof.Machine
end

