-- ==== Sys2Proof/Certificates/Slice0/Obligations.lean ====
section
/-! DEFINITION. The statements about the model, each from a numbered rule of `spec/`. Nothing is proved here. -/

open Sys2Proof Sys2Proof.Machine

/-! ## Encoding -/

/-- Rules R85, R87: a few words, written out from the opcode map, read as the commands they stand for. -/
def Obligations.SampleWordsDecode : Prop :=
  decode 0b0000000000000000 = .ok .nop ∧ decode 0b0000001100000000 = .ok .rdstat ∧
  decode 0b0001000100110001 = .ok (.crcbyte 0x31) ∧ decode 0b0010000000000011 = .ok (.setver 3) ∧
  decode 0b0010110100001110 = .ok (.rdpl 14) ∧ decode 0b0011010000000010 = .ok (.rdbufh 2) ∧
  decode 0b0100000100000000 = .ok .decode ∧ decode 0b0100001000101010 = .ok (.tag 0x2A)

/-- Rules R85 to R89: the word a well-formed command is assembled into decodes to that command. -/
def Obligations.DecodeOfEncodeIsTheCommand : Prop :=
  ∀ i : Instr, i.wf = true → decode (encode i) = .ok i

/-- Rules R87, R88: a command has one word only: what a word decodes to is assembled into that word. -/
def Obligations.EncodeOfDecodeIsTheWord : Prop :=
  ∀ (w : Word) (i : Instr), decode w = .ok i → encode i = w ∧ i.wf = true

/-- Rule R88: a word is a command exactly when it is one of the 18 format `N` words or has one of the 11 format `I`
opcodes; no word matches two rows; every other word is refused under one of two names. -/
def Obligations.DecodeAcceptsExactlyTheTable : Prop :=
  ∀ w : Word,
    ((∃ i, decode w = .ok i) ↔
      w.toNat ∈ [0x0000, 0x0100, 0x0200, 0x0300, 0x1000, 0x1200, 0x2300, 0x2800, 0x2900, 0x2A00, 0x2B00, 0x2C00,
        0x2E00, 0x2F00, 0x3000, 0x3200, 0x4000, 0x4100] ∨
      w.toNat / 256 ∈ [0x11, 0x20, 0x21, 0x22, 0x24, 0x25, 0x2D, 0x31, 0x33, 0x34, 0x42]) ∧
    (opcodeTable.filter (fun r => r.selects w)).length ≤ 1

/-- Rules R57, R88, R207: an illegal word has outcome `IllegalCommand`, data zero, and changes nothing but `ECODE`. -/
def Obligations.IllegalWordChangesOnlyEcode : Prop :=
  ∀ (s : State) (w : Word) (rest : List HostEvent), s.pending = .command w :: rest →
    (∀ i, decode w ≠ .ok i) →
    step s = .next
      { s with pending := rest, ecode := if s.ecode = 0 then 9 else s.ecode, resp := some ⟨.illegalCommand, 0x0000⟩ }

/-- Rule R89: the assembled word of a line is `(opcode << 8) | operand` in format `I` and `opcode << 8` in format
`N`. The operand is a number 0 to 255 in decimal or hexadecimal, or a printable character standing for its code, and
every other operand, a missing one and one too many are refused. The last clauses say it of the text of a line: a quoted
character (`'A'` is `0x41`), and a comment that runs to the end of the line (that the space before it is passed over,
and that a `;` or a `'` between single quotes is the character, is the model's choice of log entry 10). -/
def Obligations.AssembledWordOfALine : Prop :=
  (∀ (m : Mnemonic) (n : Nat), m.format = .i →
    (n < 256 →
      (assemble (.command m [.dec n])).map (·.map encode) = some [BitVec.ofNat 16 (m.opcode.toNat * 256 + n)] ∧
      (assemble (.command m [.hex n])).map (·.map encode) = some [BitVec.ofNat 16 (m.opcode.toNat * 256 + n)]) ∧
    (256 ≤ n → assemble (.command m [.dec n]) = none ∧ assemble (.command m [.hex n]) = none) ∧
    (0x20 ≤ n ∧ n ≤ 0x7E →
      (assemble (.command m [.chr n])).map (·.map encode) = some [BitVec.ofNat 16 (m.opcode.toNat * 256 + n)]) ∧
    (n < 0x20 ∨ 0x7E < n → assemble (.command m [.chr n]) = none)) ∧
  (∀ (m : Mnemonic) (os : List AsmOperand), m.format = .i → os.length ≠ 1 → assemble (.command m os) = none) ∧
  (∀ (m : Mnemonic) (os : List AsmOperand), m.format = .n →
    (assemble (.command m [])).map (·.map encode) = some [BitVec.ofNat 16 (m.opcode.toNat * 256)] ∧
    (os ≠ [] → assemble (.command m os) = none)) ∧
  (∀ (m : Mnemonic) (c : Char), m.format = .i → 0x20 ≤ c.toNat ∧ c.toNat ≤ 0x7E →
    assembleText (mnemonicName m ++ [' ', '\'', c, '\'']) = some [BitVec.ofNat 16 (m.opcode.toNat * 256 + c.toNat)]) ∧
  'A'.toNat = 0x41 ∧
  (∀ (m : Mnemonic) (cs : List Char), m.format = .n →
    assembleText (mnemonicName m ++ ' ' :: ';' :: cs) = some [BitVec.ofNat 16 (m.opcode.toNat * 256)])

/-! ## The step -/

/-- Rules R12, R57: a step on a command word that decodes runs exactly that command, on the state from which the word
has been taken. -/
def Obligations.StepRunsTheDecodedCommand : Prop :=
  ∀ (s : State) (w : Word) (i : Instr) (rest : List HostEvent),
    s.pending = .command w :: rest → decode w = .ok i → i.wf = true →
    step s = exec i { s with pending := rest }

/-- Rule R211: with nothing presented, nothing changes (the model's choice of log entry 1: an idle step is a step). -/
def Obligations.IdleStepChangesNothing : Prop :=
  ∀ s : State, s.pending = [] → step s = .next s

/-- Rules R230, R231: the reset input and the command `RESET` leave the same block, whatever the state before. That this
block is `State.reset` with both stores empty is the model's choice of log entry 2; that the reset input gives no response
and that the host's stream goes on behind it is the model's choice of log entry 3. -/
def Obligations.ResetInputHasTheEffectOfReset : Prop :=
  ∀ (s : State) (rest : List HostEvent), s.pending = .resetInput :: rest →
    ∃ t u, step s = .next t ∧ exec .reset { s with pending := rest } = .next u ∧
      t = { u with resp := none } ∧ t = { State.reset with pending := rest }

/-! ## System commands -/

/-- Rules R231, R36: the register values right after reset. -/
def Obligations.ResetStateHoldsTheStatedValues : Prop :=
  State.reset.crc = 0x0000 ∧ State.reset.ver = Config.supportedVersion ∧ State.reset.flg = 0x00 ∧
  State.reset.txid = 0x00 ∧ State.reset.len = 0 ∧ State.reset.csum = 0x0000 ∧ State.reset.cnt = 0 ∧
  State.reset.ecode = 0 ∧ flagsOk State.reset.flg = false

/-- Rule R191: what `RESET` does to every register, in every state; with an operand it is no command. -/
def Obligations.ResetCommandLeavesTheResetValues : Prop :=
  decode 0x0100 = .ok .reset ∧ (∀ (k : Byte) (i : Instr), k ≠ 0x00 → decode (0x01#8 ++ k) ≠ .ok i) ∧
  ∀ s : State, ∃ t, exec .reset s = .next t ∧
    t.crc = 0x0000 ∧ t.ver = Config.supportedVersion ∧ t.flg = 0x00 ∧ t.txid = 0x00 ∧ t.len = 0 ∧
    t.csum = 0x0000 ∧ t.cnt = 0 ∧ t.ecode = 0 ∧ t.resp = some ⟨.ok, 0x0000⟩ ∧ t.pending = s.pending

/-- Log entry 2 (the model's choice for rule R36's "unspecified"): after `RESET` no byte of either store has a value,
so that a read below no fill level could answer one. -/
def Obligations.ResetLeavesTheStoresUnspecified : Prop :=
  ∀ s : State, ∃ t, exec .reset s = .next t ∧ ∀ i, t.pl.read i = none ∧ t.buf.read i = none

/-- Rules R190, R192, R193: `NOP`, `CLRERR` and `RDSTAT`, that they change nothing else, and that with an operand they
are no commands. -/
def Obligations.NopClrerrRdstatResults : Prop :=
  decode 0x0000 = .ok .nop ∧ decode 0x0200 = .ok .clrerr ∧ decode 0x0300 = .ok .rdstat ∧
  (∀ (k : Byte) (i : Instr), k ≠ 0x00 →
    decode (0x00#8 ++ k) ≠ .ok i ∧ decode (0x02#8 ++ k) ≠ .ok i ∧ decode (0x03#8 ++ k) ≠ .ok i) ∧
  (∀ i : Instr, decode 0xFFFF ≠ .ok i) ∧
  ∀ s : State,
    exec .nop s = .next { s with resp := some ⟨.ok, 0x0000⟩ } ∧
    exec .clrerr s = .next { s with ecode := 0, resp := some ⟨.ok, 0x0000⟩ } ∧
    exec .rdstat s = .next { s with resp := some ⟨.ok, BitVec.ofNat 16 s.ecode.toNat⟩ }

/-! ## The CRC generator -/

/-- Rules R105 to R107: the three commands of the generator, and that they change nothing else. -/
def Obligations.CrcGeneratorResults : Prop :=
  decode 0x1000 = .ok .crcinit ∧ (∀ b : Byte, decode (0x11#8 ++ b) = .ok (.crcbyte b)) ∧
  decode 0x1200 = .ok .rdcrc ∧
  ∀ (s : State) (b : Byte),
    exec .crcinit s = .next { s with crc := 0x0000, resp := some ⟨.ok, 0x0000⟩ } ∧
    exec (.crcbyte b) s = .next { s with crc := crcStep s.crc b, resp := some ⟨.ok, 0x0000⟩ } ∧
    exec .rdcrc s = .next { s with resp := some ⟨.ok, s.crc⟩ }

/-- Rule R100: `crc_bit` is one shift of a 16-bit register with feedback taps at bits 0, 5 and 12, bit by bit. -/
def Obligations.CrcBitIsAShiftWithThreeTaps : Prop :=
  ∀ (c : Word) (d : Bool) (k : Nat), k < 16 →
    (crcBit c d).getLsbD k =
      ((decide (0 < k) && c.getLsbD (k - 1)) ^^
        (decide (k = 0 ∨ k = 5 ∨ k = 12) && (c.getLsbD 15 ^^ d)))

/-- Rule R104: the exclusive-or-first form, the table form and the byte-parallel network compute `crc_step`. -/
def Obligations.EquivalentCrcFormsAgree : Prop :=
  ∀ (c : Word) (b : Byte),
    crcStepXorFirst c b = crcStep c b ∧ crcStepTable c b = crcStep c b ∧ crcStepNetwork c b = crcStep c b

/-- Rules R102, R106, R108 law 1: a stream of `CRCBYTE`s after `CRCINIT`, in any number of pieces, leaves the checksum
of all the bytes given, and changes nothing else. -/
def Obligations.CrcStreamComputesTheChecksum : Prop :=
  ∀ (s : State) (x y : List Byte),
    execAll (Instr.crcinit :: x.map Instr.crcbyte) s =
      .next { s with crc := crc16 x, resp := some ⟨.ok, 0x0000⟩ } ∧
    execAll ([Instr.crcinit] ++ x.map Instr.crcbyte ++ [.rdcrc] ++ y.map Instr.crcbyte ++ [.rdcrc]) s =
      .next { s with crc := crc16 (x ++ y), resp := some ⟨.ok, crc16 (x ++ y)⟩ }

/-- Rule R108 law 2: linearity of the step, and of the checksum over byte sequences of equal length. -/
def Obligations.CrcIsLinear : Prop :=
  (∀ (c c' : Word) (b b' : Byte), crcStep (c ^^^ c') (b ^^^ b') = crcStep c b ^^^ crcStep c' b') ∧
  ∀ x y : List Byte, x.length = y.length →
    crc16 (List.zipWith (fun a b => a ^^^ b) x y) = crc16 x ^^^ crc16 y

/-- Rule R108 law 3: zero bytes from zero leave zero, and leading zero bytes are invisible. -/
def Obligations.CrcOfZeroBytes : Prop :=
  crcStep 0x0000 0x00 = 0x0000 ∧
  ∀ (n : Nat) (m : List Byte),
    crc16 (List.replicate n 0x00) = 0x0000 ∧ crc16 (List.replicate n 0x00 ++ m) = crc16 m

/-- Rule R108 law 4: for a fixed input each step is a bijection of the accumulator's values. -/
def Obligations.CrcStepIsABijection : Prop :=
  (∀ d : Bool, Function.Bijective (fun c : Word => crcBit c d)) ∧
  ∀ b : Byte, Function.Bijective (fun c : Word => crcStep c b)

/-- Rule R108 law 5: one flipped bit always changes the checksum. -/
def Obligations.CrcSeesEveryFlippedBit : Prop :=
  ∀ (m : List Byte) (j k : Nat), j < m.length → k < 8 → crc16 (flipBit m j k) ≠ crc16 m

/-- Rules R108 law 6, R237: the checksum appended high byte first leaves zero; appended low byte first, the wire's
order, it leaves no constant. -/
def Obligations.CrcResidue : Prop :=
  (∀ m : List Byte,
    crc16 (m ++ [BitVec.ofNat 8 ((crc16 m).toNat / 256), BitVec.ofNat 8 ((crc16 m).toNat % 256)]) = 0x0000) ∧
  ∀ c : Word, ∃ m : List Byte, crc16 (wireImage m) ≠ c

/-! ## Frame fields and payload -/

/-- Rule R71: packing and unpacking byte 0, as arithmetic, and that they are inverse. -/
def Obligations.ByteZeroPackingIsABijection : Prop :=
  (∀ (v : Version) (f : Flags), (packB0 v f).toNat = v.toNat * 64 + f.toNat ∧
    b0Version (packB0 v f) = v ∧ b0Flags (packB0 v f) = f) ∧
  ∀ b : Byte, (b0Version b).toNat = b.toNat / 64 ∧ (b0Flags b).toNat = b.toNat % 64 ∧
    packB0 (b0Version b) (b0Flags b) = b

/-- Rule R75: the valid flags values are exactly these 28. -/
def Obligations.ValidFlagsAreTheTwentyEight : Prop :=
  (∀ f : Flags, flagsOk f = true ↔
    (0x01 ≤ f.toNat ∧ f.toNat ≤ 0x07) ∨ (0x09 ≤ f.toNat ∧ f.toNat ≤ 0x0F) ∨
    (0x11 ≤ f.toNat ∧ f.toNat ≤ 0x17) ∨ (0x19 ≤ f.toNat ∧ f.toNat ≤ 0x1F)) ∧
  (∀ f : Flags, flagsOk f = true ↔ f.toNat % 8 ≠ 0 ∧ f.toNat / 32 = 0) ∧
  ((List.range 64).filter (fun n => flagsOk (BitVec.ofNat 6 n))).length = 28

/-- Rule R76: the classification of a flags value, bit by bit. -/
def Obligations.FlagsClassification : Prop :=
  ∀ f : Flags,
    (fclass f).toNat % 8 = f.toNat % 8 ∧ (fclass f).getLsbD 3 = f.getLsbD 3 ∧ (fclass f).getLsbD 4 = f.getLsbD 4 ∧
    (fclass f).getLsbD 5 = flagsOk f ∧
    ((fclass f).getLsbD 6 = true ↔ f.toNat % 8 = 7 ∧ f.getLsbD 3 = true) ∧
    ((fclass f).getLsbD 7 = true ↔ f.getLsbD 3 = false ∨ (f.toNat % 8 = 7 ∧ f.getLsbD 3 = true))

/-- Rules R120, R121: the two setters that check their operand: the value loaded, and `BadOperand` with nothing
loaded. -/
def Obligations.SetverSetflgResults : Prop :=
  ∀ (s : State) (b : Byte),
    decode (0x20#8 ++ b) = .ok (.setver b) ∧ decode (0x21#8 ++ b) = .ok (.setflg b) ∧
    (b.toNat < 4 → exec (.setver b) s = .next { s with ver := BitVec.ofNat 2 b.toNat, resp := some ⟨.ok, 0x0000⟩ }) ∧
    (4 ≤ b.toNat → exec (.setver b) s = .next (s.afterFailure .badOperand 10)) ∧
    (b.toNat < 64 → exec (.setflg b) s = .next { s with flg := BitVec.ofNat 6 b.toNat, resp := some ⟨.ok, 0x0000⟩ }) ∧
    (64 ≤ b.toNat → exec (.setflg b) s = .next (s.afterFailure .badOperand 10))

/-- Rules R122 to R124: `SETID`, `SETB0` and `PLCLR`, which never fail, and that they change nothing else. -/
def Obligations.SetidSetb0PlclrResults : Prop :=
  ∀ (s : State) (b : Byte),
    decode (0x22#8 ++ b) = .ok (.setid b) ∧ decode (0x25#8 ++ b) = .ok (.setb0 b) ∧ decode 0x2300 = .ok .plclr ∧
    exec (.setid b) s = .next { s with txid := b, resp := some ⟨.ok, 0x0000⟩ } ∧
    exec (.setb0 b) s = .next
      { s with ver := BitVec.ofNat 2 (b.toNat / 64), flg := BitVec.ofNat 6 (b.toNat % 64), resp := some ⟨.ok, 0x0000⟩ } ∧
    exec .plclr s = .next { s with len := 0, resp := some ⟨.ok, 0x0000⟩ }

/-- Rule R125: `PLPUSH` stores one byte at index `LEN` and no other, and is refused at `LEN = 255` without wrapping. -/
def Obligations.PlpushResult : Prop :=
  ∀ (s : State) (b : Byte),
    decode (0x24#8 ++ b) = .ok (.plpush b) ∧
    (s.len.toNat < 255 → ∃ m : Memory,
      exec (.plpush b) s = .next
        { s with pl := m, len := BitVec.ofNat 8 (s.len.toNat + 1), resp := some ⟨.ok, 0x0000⟩ } ∧
      m.read s.len.toNat = some b ∧ ∀ i, i ≠ s.len.toNat → m.read i = s.pl.read i) ∧
    (s.len.toNat = 255 → exec (.plpush b) s = .next (s.afterFailure .bufferFull 11))

/-- Rules R126 to R130, R132, R133: the field reads answer the register, change nothing and never fail. -/
def Obligations.FieldReadResults : Prop :=
  decode 0x2800 = .ok .rdver ∧ decode 0x2900 = .ok .rdflg ∧ decode 0x2A00 = .ok .rdid ∧ decode 0x2B00 = .ok .rdlen ∧
  decode 0x2C00 = .ok .rdcsum ∧ decode 0x2E00 = .ok .rdclass ∧ decode 0x2F00 = .ok .rdb0 ∧
  ∀ s : State,
    exec .rdver s = .next { s with resp := some ⟨.ok, BitVec.ofNat 16 s.ver.toNat⟩ } ∧
    exec .rdflg s = .next { s with resp := some ⟨.ok, BitVec.ofNat 16 s.flg.toNat⟩ } ∧
    exec .rdid s = .next { s with resp := some ⟨.ok, BitVec.ofNat 16 s.txid.toNat⟩ } ∧
    exec .rdlen s = .next { s with resp := some ⟨.ok, BitVec.ofNat 16 s.len.toNat⟩ } ∧
    exec .rdcsum s = .next { s with resp := some ⟨.ok, s.csum⟩ } ∧
    exec .rdclass s = .next { s with resp := some ⟨.ok, BitVec.ofNat 16 (fclass s.flg).toNat⟩ } ∧
    exec .rdb0 s = .next { s with resp := some ⟨.ok, BitVec.ofNat 16 (s.ver.toNat * 64 + s.flg.toNat)⟩ }

/-- Rule R131: `RDPL` answers the byte at its index below `LEN`, is refused at and above `LEN`, and changes nothing. -/
def Obligations.RdplResult : Prop :=
  ∀ (s : State) (k : Byte),
    decode (0x2D#8 ++ k) = .ok (.rdpl k) ∧
    (∀ b : Byte, k.toNat < s.len.toNat → s.pl.read k.toNat = some b →
      exec (.rdpl k) s = .next { s with resp := some ⟨.ok, BitVec.ofNat 16 b.toNat⟩ }) ∧
    (s.len.toNat ≤ k.toNat → exec (.rdpl k) s = .next (s.afterFailure .badOperand 10))

/-! ## The wire buffer -/

/-- Rules R150, R152: `BUFCLR` and `RDCNT`, and that they change nothing else. -/
def Obligations.BufclrRdcntResults : Prop :=
  decode 0x3000 = .ok .bufclr ∧ decode 0x3200 = .ok .rdcnt ∧
  ∀ s : State,
    exec .bufclr s = .next { s with cnt := 0, resp := some ⟨.ok, 0x0000⟩ } ∧
    exec .rdcnt s = .next { s with resp := some ⟨.ok, BitVec.ofNat 16 s.cnt.toNat⟩ }

/-- Rule R151: `BUFPUSH` stores one byte at index `CNT` and no other, and is refused at `CNT = 260` without
wrapping. -/
def Obligations.BufpushResult : Prop :=
  ∀ (s : State) (b : Byte),
    decode (0x31#8 ++ b) = .ok (.bufpush b) ∧
    (s.cnt.toNat < 260 → ∃ m : Memory,
      exec (.bufpush b) s = .next
        { s with buf := m, cnt := BitVec.ofNat 9 (s.cnt.toNat + 1), resp := some ⟨.ok, 0x0000⟩ } ∧
      m.read s.cnt.toNat = some b ∧ ∀ i, i ≠ s.cnt.toNat → m.read i = s.buf.read i) ∧
    (s.cnt.toNat = 260 → exec (.bufpush b) s = .next (s.afterFailure .bufferFull 11))

/-- Rules R153, R154: `RDBUF` and `RDBUFH` answer the byte at their index below `CNT`, are refused otherwise, and
change nothing. -/
def Obligations.RdbufRdbufhResults : Prop :=
  ∀ (s : State) (k : Byte),
    decode (0x33#8 ++ k) = .ok (.rdbuf k) ∧ decode (0x34#8 ++ k) = .ok (.rdbufh k) ∧
    (∀ b : Byte, k.toNat < s.cnt.toNat → s.buf.read k.toNat = some b →
      exec (.rdbuf k) s = .next { s with resp := some ⟨.ok, BitVec.ofNat 16 b.toNat⟩ }) ∧
    (s.cnt.toNat ≤ k.toNat → exec (.rdbuf k) s = .next (s.afterFailure .badOperand 10)) ∧
    (∀ b : Byte, k.toNat ≤ 3 → 256 + k.toNat < s.cnt.toNat → s.buf.read (256 + k.toNat) = some b →
      exec (.rdbufh k) s = .next { s with resp := some ⟨.ok, BitVec.ofNat 16 b.toNat⟩ }) ∧
    (3 < k.toNat ∨ s.cnt.toNat ≤ 256 + k.toNat → exec (.rdbufh k) s = .next (s.afterFailure .badOperand 10))

/-! ## The codec -/

/-- Rule R160: `ENCODE` stores the wire image of the field registers at indices 0 to `4 + LEN` and no other byte,
never fails, and changes `CNT` and `CSUM` alone beside. -/
def Obligations.EncodeResult : Prop :=
  decode 0x4000 = .ok .encode ∧
  ∀ (s : State) (p : List Byte), s.HoldsPayload p →
    ∃ m : Memory,
      exec .encode s = .next
        { s with
          buf := m, cnt := BitVec.ofNat 9 (5 + s.len.toNat),
          csum := crc16 (wireBody s.ver s.flg s.txid p), resp := some ⟨.ok, 0x0000⟩ } ∧
      m.Holds (wireImage (wireBody s.ver s.flg s.txid p)) ∧
      ∀ i, 5 + s.len.toNat ≤ i → m.read i = s.buf.read i

/-- Rules R161, R242: `DECODE` of a frame of the supported version with valid flags, whatever bytes follow it, loads
the field registers and `PL[0 .. L-1]`, and changes nothing else. -/
def Obligations.DecodeOfAFrameSucceeds : Prop :=
  decode 0x4100 = .ok .decode ∧
  ∀ (s : State) (f : Flags) (id : Byte) (p surplus : List Byte),
    flagsOk f = true → p.length ≤ 255 →
    s.HoldsWire (wireImage (wireBody Config.supportedVersion f id p) ++ surplus) →
    ∃ m : Memory,
      exec .decode s = .next
        { s with
          ver := Config.supportedVersion, flg := f, txid := id, len := BitVec.ofNat 8 p.length, pl := m,
          csum := crc16 (wireBody Config.supportedVersion f id p), resp := some ⟨.ok, 0x0000⟩ } ∧
      m.Holds p ∧ ∀ i, p.length ≤ i → m.read i = s.pl.read i

/-- Rules R161, R205: on every buffer `DECODE` does what reading the bytes in the order of the rule's checks gives: the
first check that fails, with nothing changed but `ECODE`, or the frame. -/
def Obligations.DecodeRefinesReadFrame : Prop :=
  ∀ (s : State) (m : List Byte), s.HoldsWire m →
    match readFrame m with
    | .error c => exec .decode s = .next (s.afterFailure c (codeBits c))
    | .ok f => ∃ pl : Memory,
        exec .decode s = .next
          { s with
            ver := f.ver, flg := f.flg, txid := f.id, len := BitVec.ofNat 8 f.payload.length, pl := pl,
            csum := f.csum, resp := some ⟨.ok, 0x0000⟩ } ∧
        f.payload.length ≤ 255 ∧ pl.Holds f.payload ∧ ∀ i, f.payload.length ≤ i → pl.read i = s.pl.read i

/-- Rules R162, R206: `TAG` on every buffer: too short, another version, or the id and the trailer replaced together,
and no other byte and no register. -/
def Obligations.TagResult : Prop :=
  ∀ (s : State) (id : Byte) (m : List Byte), s.HoldsWire m → m.length ≤ 260 →
    decode (0x42#8 ++ id) = .ok (.tag id) ∧
    (m.length < 5 → exec (.tag id) s = .next (s.afterFailure .truncated 2)) ∧
    (5 ≤ m.length → (m.getD 0 0).toNat / 64 ≠ 0 → exec (.tag id) s = .next (s.afterFailure .unsupportedVersion 3)) ∧
    (5 ≤ m.length → (m.getD 0 0).toNat / 64 = 0 → ∃ b : Memory,
      exec (.tag id) s = .next { s with buf := b, resp := some ⟨.ok, 0x0000⟩ } ∧
      (tagBytes id m).length = m.length ∧ b.Holds (tagBytes id m) ∧
      ∀ i, i ≠ 1 → i ≠ m.length - 2 → i ≠ m.length - 1 → b.read i = s.buf.read i)

/-- Rule R163: `ENCODE` then `DECODE` gives the fields back (or fails as the rule says), and a successful `DECODE` then
`ENCODE` gives the wire bytes back. -/
def Obligations.EncodeDecodeRoundTrip : Prop :=
  (∀ (s : State) (p : List Byte), s.HoldsPayload p → ∃ t, exec .encode s = .next t ∧
    (s.ver = Config.supportedVersion → flagsOk s.flg = true →
      ∃ u, exec .decode t = .next u ∧ u.resp = some ⟨.ok, 0x0000⟩ ∧ u.ver = t.ver ∧ u.flg = t.flg ∧ u.txid = t.txid ∧
        u.len = t.len ∧ u.csum = t.csum ∧ u.HoldsPayload p ∧ t.HoldsPayload p) ∧
    (s.ver ≠ Config.supportedVersion → exec .decode t = .next (t.afterFailure .unsupportedVersion 3)) ∧
    (s.ver = Config.supportedVersion → flagsOk s.flg = false →
      exec .decode t = .next (t.afterFailure .invalidFlags 4))) ∧
  ∀ s t : State, exec .decode s = .next t → t.resp = some ⟨.ok, 0x0000⟩ →
    ∃ u, exec .encode t = .next u ∧ u.cnt.toNat = 5 + t.len.toNat ∧
      ∀ i, i < 5 + t.len.toNat → u.buf.read i = s.buf.read i

/-- Rule R164: tagging commutes with encoding, and a tagged buffer that is one frame decodes to the id stamped. -/
def Obligations.TaggingCommutesWithEncoding : Prop :=
  (∀ (s : State) (p : List Byte) (id : Byte), s.ver = Config.supportedVersion → s.HoldsPayload p →
    ∃ t u, execAll [.setid 0x00, .encode, .tag id] s = .next t ∧ execAll [.setid id, .encode] s = .next u ∧
      t.cnt = u.cnt ∧ (∀ i, t.buf.read i = u.buf.read i) ∧
      t.txid = 0x00 ∧ t.csum = crc16 (wireBody s.ver s.flg 0x00 p) ∧
      u.txid = id ∧ u.csum = crc16 (wireBody s.ver s.flg id p) ∧ u.HoldsWire (wireImage (wireBody s.ver s.flg id p)) ∧
      (flagsOk s.flg = true → ∃ t' u', exec .decode t = .next t' ∧ exec .decode u = .next u' ∧
        t'.resp = some ⟨.ok, 0x0000⟩ ∧ u'.resp = some ⟨.ok, 0x0000⟩ ∧ t'.txid = id ∧ u'.txid = id)) ∧
  ∀ (s : State) (b0 i l id : Byte) (rest : List Byte), s.HoldsWire (b0 :: i :: l :: rest) →
    rest.length = l.toNat + 2 → b0.toNat / 64 = 0 → flagsOk (BitVec.ofNat 6 (b0.toNat % 64)) = true →
    ∃ u, execAll [.tag id, .decode] s = .next u ∧ u.resp = some ⟨.ok, 0x0000⟩ ∧ u.txid = id

/-- Rule R165: what one flipped bit of an encoded frame does to `DECODE`, by where the bit is. A length bit that makes
the frame shorter is caught unless the two bytes then taken as trailer happen to match. -/
def Obligations.OneFlippedBitIsRefused : Prop :=
  ∀ (s : State) (f : Flags) (id : Byte) (p : List Byte) (j k : Nat),
    flagsOk f = true → p.length ≤ 255 → k < 8 →
    s.HoldsWire (flipBit (wireImage (wireBody Config.supportedVersion f id p)) j k) →
    (j = 1 ∨ (3 ≤ j ∧ j < 5 + p.length) → AnswersCode .decode s .checksumMismatch) ∧
    (j = 0 → 6 ≤ k → AnswersCode .decode s .unsupportedVersion) ∧
    (j = 0 → k < 6 → flagsOk (f ^^^ (1#6 <<< k)) = false → AnswersCode .decode s .invalidFlags) ∧
    (j = 0 → k < 6 → flagsOk (f ^^^ (1#6 <<< k)) = true → AnswersCode .decode s .checksumMismatch) ∧
    (j = 2 → p.length.testBit k = false → AnswersCode .decode s .truncated) ∧
    (j = 2 → p.length.testBit k = true → AnswersCode .decode s .checksumMismatch ∨
      (AnswersCode .decode s .ok ∧
        (wireImage (wireBody Config.supportedVersion f id p)).getD (3 + p.length - 2 ^ k) 0 ++
          (wireImage (wireBody Config.supportedVersion f id p)).getD (3 + p.length - 2 ^ k + 1) 0 =
        (let c := crc16 ((flipBit (wireBody Config.supportedVersion f id p) 2 k).take (3 + p.length - 2 ^ k))
         lowByte c ++ highByte c)))

/-- Rules R22, R23, R26, R35: right after `ENCODE` and after a successful `DECODE`, `CSUM` is the checksum of the field
registers and the payload; after a successful `DECODE` the version is supported and the flags valid. -/
def Obligations.ChecksumRegisterIsFreshAfterCodec : Prop :=
  (∀ s t : State, exec .encode s = .next t →
    ∃ p, t.HoldsPayload p ∧ t.csum = crc16 (wireBody t.ver t.flg t.txid p)) ∧
  ∀ s t : State, exec .decode s = .next t → t.resp = some ⟨.ok, 0x0000⟩ →
    ∃ p, t.HoldsPayload p ∧ t.csum = crc16 (wireBody t.ver t.flg t.txid p) ∧
      t.ver = Config.supportedVersion ∧ flagsOk t.flg = true

/-! ## Failures -/

/-- Rule R201: the numbers of the outcome codes. -/
def Obligations.OutcomeCodeNumbers : Prop :=
  codeBits .ok = 0 ∧ codeBits .invalidInput = 1 ∧ codeBits .truncated = 2 ∧ codeBits .unsupportedVersion = 3 ∧
  codeBits .invalidFlags = 4 ∧ codeBits .checksumMismatch = 5 ∧ codeBits .tooManyFragments = 6 ∧
  codeBits .incompatibleChunk = 7 ∧ codeBits .incompleteTransmission = 8 ∧ codeBits .illegalCommand = 9 ∧
  codeBits .badOperand = 10 ∧ codeBits .bufferFull = 11

/-- Rule R207: failure entry, for every command word in every state: a failing command changes nothing but `ECODE`,
which takes the code only where it was 0; a command that succeeds changes `ECODE` only if it is `CLRERR` or
`RESET`. -/
def Obligations.FailureEntry : Prop :=
  ∀ (w : Word) (s t : State) (r : Response), stepCommand w s = .next t → t.resp = some r →
    (r.code ≠ .ok →
      t = { s with
        ecode := if s.ecode = 0 then codeBits r.code else s.ecode, resp := some ⟨r.code, 0x0000⟩ }) ∧
    (r.code = .ok → t.ecode = s.ecode ∨ w = 0x0100 ∨ w = 0x0200)

/-- Rules R86, R200, R203: every command word that is taken gets exactly one response, its code is one of the eight the
block returns, and its data is zero unless it is a read command that succeeded. -/
def Obligations.EveryCommandIsAnswered : Prop :=
  ∀ (w : Word) (s t : State), stepCommand w s = .next t →
    ∃ r, t.resp = some r ∧ r.code ∈ blockCodes ∧ t.pending = s.pending ∧
      (r.code ≠ .ok → r.data = 0x0000) ∧
      (∀ i, decode w = .ok i →
        i.mnemonic ∉ [.rdstat, .rdcrc, .rdver, .rdflg, .rdid, .rdlen, .rdcsum, .rdpl, .rdclass, .rdb0, .rdcnt, .rdbuf,
          .rdbufh] → r.data = 0x0000)

/-- Rule R201, column "Raised by", and rule R202: which command can return which failure. -/
def Obligations.FailuresByCommand : Prop :=
  ∀ (i : Instr) (s t : State) (r : Response), exec i s = .next t → t.resp = some r →
    (r.code = .badOperand → i.mnemonic ∈ [.setver, .setflg, .rdpl, .rdbuf, .rdbufh]) ∧
    (r.code = .bufferFull → i.mnemonic ∈ [.plpush, .bufpush]) ∧
    (r.code = .truncated → i.mnemonic ∈ [.decode, .tag]) ∧
    (r.code = .unsupportedVersion → i.mnemonic ∈ [.decode, .tag]) ∧
    (r.code = .invalidFlags → i.mnemonic = .decode) ∧
    (r.code = .checksumMismatch → i.mnemonic = .decode) ∧ r.code ≠ .illegalCommand

/-- Rule R210: a failure recorded in `ECODE` alters no later command but what `RDSTAT` answers, and only `CLRERR` and
`RESET` take it away. -/
def Obligations.EcodeNeverAltersACommand : Prop :=
  (∀ (i : Instr) (s t : State) (e : BitVec 4), i ≠ .rdstat → exec i s = .next t →
    ∃ u, exec i { s with ecode := e } = .next u ∧ { u with ecode := t.ecode } = t) ∧
  ∀ (i : Instr) (s t : State), exec i s = .next t → s.ecode ≠ 0 → i ≠ .clrerr → i ≠ .reset → t.ecode = s.ecode

/-! ## The machine as a whole -/

/-- Rules R21 to R29, R37 (its columns of writes): which commands may change which register, and which may change a
byte of which store. -/
def Obligations.CommandsWriteOnlyTheirOwnState : Prop :=
  ∀ (i : Instr) (s t : State), exec i s = .next t →
    (t.crc = s.crc ∨ i.mnemonic ∈ [.reset, .crcinit, .crcbyte]) ∧
    (t.ver = s.ver ∨ i.mnemonic ∈ [.reset, .setver, .setb0, .decode]) ∧
    (t.flg = s.flg ∨ i.mnemonic ∈ [.reset, .setflg, .setb0, .decode]) ∧
    (t.txid = s.txid ∨ i.mnemonic ∈ [.reset, .setid, .decode]) ∧
    (t.len = s.len ∨ i.mnemonic ∈ [.reset, .plclr, .plpush, .decode]) ∧
    (t.csum = s.csum ∨ i.mnemonic ∈ [.reset, .encode, .decode]) ∧
    (t.cnt = s.cnt ∨ i.mnemonic ∈ [.reset, .bufclr, .bufpush, .encode]) ∧
    (t.pl = s.pl ∨ i.mnemonic ∈ [.reset, .plpush, .decode]) ∧
    (t.buf = s.buf ∨ i.mnemonic ∈ [.reset, .bufpush, .encode, .tag]) ∧
    t.pending = s.pending

/-- Rule R58: every command but `CRCBYTE`, `PLPUSH` and `BUFPUSH`, issued again at once, gives the same response and
leaves the same state; a read command changes nothing but its response, except that a refused one may set `ECODE`. -/
def Obligations.CommandsAreIdempotent : Prop :=
  (∀ (i : Instr) (s t : State), i.mnemonic ∉ [.crcbyte, .plpush, .bufpush] → exec i s = .next t →
    ∃ u, exec i t = .next u ∧ u.SameVisible t) ∧
  ∀ (i : Instr) (s t : State),
    i.mnemonic ∈ [.rdstat, .rdcrc, .rdver, .rdflg, .rdid, .rdlen, .rdcsum, .rdpl, .rdclass, .rdb0, .rdcnt, .rdbuf,
      .rdbufh] → exec i s = .next t →
    t = { s with ecode := t.ecode, resp := t.resp } ∧ (t.resp.map (·.code) = some .ok → t.ecode = s.ecode)

/-- Rule R36: the invariant of rule R34 holds right after reset. -/
def Obligations.ResetStateMeetsTheInvariant : Prop :=
  State.reset.Inv

/-- Rule R34: every step keeps the invariant, from every state that has it. -/
def Obligations.StepKeepsTheInvariant : Prop :=
  ∀ s t : State, s.Inv → step s = .next t → t.Inv

/-- Rules R34, R210, R245: from a state with the invariant every step answers a next state: the block never stops,
reads no byte that has not been written and touches no index that does not exist. -/
def Obligations.StepNeverStops : Prop :=
  ∀ s : State, s.Inv → ∃ t, step s = .next t

/-- Rules R27, R28, R36: bytes at and above the fill levels are unobservable: two states that differ in nothing else
give the same response at every step and go on differing in nothing else. -/
def Obligations.StaleBytesAreUnobservable : Prop :=
  ∀ s t s' : State, s.SameVisible t → step s = .next s' → ∃ t', step t = .next t' ∧ s'.SameVisible t'

/-- Rule R59, over the model's platform of log entry 9 (a list of instances, one stepped at a time: the model's choice): a
step of the platform gives the instance named exactly what `step` gives it and leaves every other as it was; steps of
two instances commute; and where every instance has the invariant of rule R34, a step of any of them is answered and
every instance still has it. -/
def Obligations.InstancesAreIndependent : Prop :=
  (∀ (p : List State) (j : Nat) (s t : State), p[j]? = some s → step s = .next t →
    stepAt j p = .next (p.set j t) ∧ (p.set j t)[j]? = some t ∧ ∀ k, k ≠ j → (p.set j t)[k]? = p[k]?) ∧
  (∀ (p : List State) (j k : Nat) (s s' t t' : State), j ≠ k → p[j]? = some s → p[k]? = some s' →
    step s = .next t → step s' = .next t' →
    stepAt k (p.set j t) = .next ((p.set j t).set k t') ∧ stepAt j (p.set k t') = .next ((p.set j t).set k t')) ∧
  ∀ (p : List State) (j : Nat), (∀ s ∈ p, s.Inv) → ∃ q, stepAt j p = .next q ∧ q.length = p.length ∧ ∀ s ∈ q, s.Inv

/-! ## The source's operations as command sequences -/

/-- Rules R90, R124, R125, R150, R151: `PLLOAD` leaves exactly the listed payload and `BUFLOAD` exactly the listed
buffer, whatever the stores held. -/
def Obligations.LoadsFillTheStores : Prop :=
  ∀ (s : State) (m : List Byte),
    (m.length ≤ 255 → ∃ t, execAll (expandPseudo .plload m) s = .next t ∧ t.HoldsPayload m ∧
      t = { s with pl := t.pl, len := t.len, resp := some ⟨.ok, 0x0000⟩ }) ∧
    (m.length ≤ 260 → ∃ t, execAll (expandPseudo .bufload m) s = .next t ∧ t.HoldsWire m ∧
      t = { s with buf := t.buf, cnt := t.cnt, resp := some ⟨.ok, 0x0000⟩ })

/-- Rule R166: `BUFLOAD bytes`, `DECODE` is the source's `decode(bytes)`: the code is the typed result and on `OK` the
registers and `PL` hold the frame. Of more than 260 bytes the 261st `BUFPUSH` fails with `BufferFull`, and `DECODE` reads
the first 260. -/
def Obligations.LoadAndDecodeIsTheSourceDecode : Prop :=
  ∀ (s : State) (m : List Byte),
    (260 < m.length → ∃ t, execAll (expandPseudo .bufload (m.take 261)) s = .next t ∧
      t.resp = some ⟨.bufferFull, 0x0000⟩ ∧ t.HoldsWire (m.take 260)) ∧
    ∃ t, execAll (expandPseudo .bufload m ++ [.decode]) s = .next t ∧ t.HoldsWire (m.take 260) ∧
      match readFrame (m.take 260) with
      | .error c => t.resp = some ⟨c, 0x0000⟩ ∧ t.ver = s.ver ∧ t.flg = s.flg ∧ t.txid = s.txid ∧ t.len = s.len ∧
          t.csum = s.csum ∧ t.pl = s.pl
      | .ok f => t.resp = some ⟨.ok, 0x0000⟩ ∧ t.ver = f.ver ∧ t.flg = f.flg ∧ t.txid = f.id ∧
          t.HoldsPayload f.payload ∧ t.csum = f.csum

/-- Rule R166: the sequence a host issues to emit one frame (`SETVER`, `SETFLG`, `SETID 0`, `PLLOAD`, `ENCODE`) leaves
in `BUF` exactly the wire image of that frame, whatever the state before. -/
def Obligations.SourceEncodeSequenceEmitsTheFrame : Prop :=
  ∀ (s : State) (f : Flags) (p : List Byte), p.length ≤ 255 →
    ∃ t, execAll ([Instr.setver 0x00, .setflg (BitVec.ofNat 8 f.toNat), .setid 0x00] ++ expandPseudo .plload p ++
        [.encode]) s = .next t ∧
      t.resp = some ⟨.ok, 0x0000⟩ ∧ t.ver = Config.supportedVersion ∧ t.flg = f ∧ t.txid = 0x00 ∧ t.HoldsPayload p ∧
      t.csum = crc16 (wireBody Config.supportedVersion f 0x00 p) ∧
      t.HoldsWire (wireImage (wireBody Config.supportedVersion f 0x00 p))
end

