-- ==== Sys2Proof/Laws/Memory.lean ====
section
/-! SUPPORT. The laws of a byte store: read after write, the canonical form, the index range, the fill level. -/

namespace Sys2Proof.Machine

@[simp] theorem memory_read_nil (i : Nat) : Memory.read [] i = none := rfl

theorem memory_read_cons (k : Nat) (v : Byte) (m : Memory) (i : Nat) :
    Memory.read ((k, v) :: m) i = if k = i then some v else Memory.read m i := rfl

/-- A read after a write, at any index. -/
theorem memory_read_write (m : Memory) (i j : Nat) (b : Byte) :
    (m.write i b).read j = if j = i then some b else m.read j := by
  induction m with
  | nil => simp only [Memory.write, memory_read_cons, memory_read_nil, eq_comm]
  | cons c m ih =>
    obtain ⟨k, v⟩ := c
    simp only [Memory.write]
    split
    · simp only [memory_read_cons, eq_comm]
    · split
      · subst_vars; simp only [memory_read_cons]; split <;> simp_all [eq_comm]
      · rename_i h1 h2
        simp only [memory_read_cons, ih]
        by_cases hk : k = j
        · subst hk; simp [Ne.symm h2]
        · simp [hk]

/-- A read after a write to the same index gives the byte written. -/
@[simp] theorem memory_read_write_same (m : Memory) (i : Nat) (b : Byte) : (m.write i b).read i = some b := by
  simp [memory_read_write]

/-- A write leaves every other index as it was. -/
theorem memory_read_write_other (m : Memory) {i j : Nat} (b : Byte) (h : j ≠ i) :
    (m.write i b).read j = m.read j := by
  simp [memory_read_write, h]

/-- A cell of a written store is the cell written or was there before. -/
theorem memory_mem_write {m : Memory} {i : Nat} {b : Byte} {c : Host.Cell} (h : c ∈ m.write i b) :
    c = (i, b) ∨ c ∈ m := by
  induction m with
  | nil => simpa [Memory.write] using h
  | cons d m ih =>
    obtain ⟨k, v⟩ := d
    simp only [Memory.write] at h
    split at h
    · simpa using h
    · split at h <;> rcases List.mem_cons.1 h with h | h
      · exact .inl h
      · exact .inr (List.mem_cons_of_mem _ h)
      · exact .inr (h ▸ List.mem_cons_self)
      · exact (ih h).imp_right (List.mem_cons_of_mem _)

/-- An empty store is in canonical form. -/
theorem memory_wf_nil : Memory.wf [] = true := rfl

/-- A write keeps the canonical form. -/
theorem memory_wf_write {m : Memory} (i : Nat) (b : Byte) (h : m.wf = true) : (m.write i b).wf = true := by
  simp only [Memory.wf, decide_eq_true_eq] at h ⊢
  induction m with
  | nil => simp [Memory.write]
  | cons d m ih =>
    obtain ⟨k, v⟩ := d
    obtain ⟨hk, hm⟩ := List.pairwise_cons.1 h
    simp only [Memory.write]
    split
    · rename_i hi
      refine List.pairwise_cons.2 ⟨fun c hc => ?_, h⟩
      rcases List.mem_cons.1 hc with rfl | hc
      · exact hi
      · exact lt_trans hi (hk c hc)
    · split
      · rename_i hik
        exact List.pairwise_cons.2 ⟨fun c hc => hik ▸ hk c hc, hm⟩
      · refine List.pairwise_cons.2 ⟨fun c hc => ?_, ih hm⟩
        rcases memory_mem_write hc with rfl | hc
        · show k < i
          omega
        · exact hk c hc

/-- A write inside an index range keeps a store inside it. -/
theorem memory_within_write {m : Memory} {n i : Nat} (b : Byte) (hi : i < n) (h : m.within n) :
    (m.write i b).within n := by
  intro c hc
  rcases memory_mem_write hc with rfl | hc
  · exact hi
  · exact h c hc

/-- A write keeps a fill level. -/
theorem memory_filled_write {m : Memory} {n : Nat} (i : Nat) (b : Byte) (h : m.filled n) :
    (m.write i b).filled n := by
  intro j hj
  rw [memory_read_write]
  split
  · rfl
  · exact h j hj

/-- A write at the fill level raises it by one (rules R25, R29). -/
theorem memory_filled_write_succ {m : Memory} {n : Nat} (b : Byte) (h : m.filled n) :
    (m.write n b).filled (n + 1) := by
  intro j hj
  rw [memory_read_write]
  split
  · rfl
  · exact h j (by omega)

/-! ### A run of bytes written -/

/-- The bytes `bs` written from index `i` up. -/
def Memory.writeAll (m : Memory) (i : Nat) : List Byte → Memory
  | [] => m
  | b :: bs => Memory.writeAll (m.write i b) (i + 1) bs

/-- A read after a run of writes, at any index. -/
theorem memory_read_writeAll (m : Memory) (i j : Nat) (bs : List Byte) :
    (m.writeAll i bs).read j = if i ≤ j ∧ j < i + bs.length then bs[j - i]? else m.read j := by
  induction bs generalizing m i with
  | nil =>
    have : ¬(i ≤ j ∧ j < i) := by omega
    simp [Memory.writeAll, this]
  | cons b bs ih =>
    simp only [Memory.writeAll, ih, memory_read_write, List.length_cons]
    rcases lt_trichotomy j i with h | h | h
    · have h1 : ¬(i + 1 ≤ j ∧ j < i + 1 + bs.length) := by omega
      have h2 : ¬(i ≤ j ∧ j < i + (bs.length + 1)) := by omega
      rw [if_neg h1, if_neg h2, if_neg (Nat.ne_of_lt h)]
    · subst h
      simp
    · obtain ⟨d, rfl⟩ := Nat.exists_eq_add_of_lt h
      have h3 : i + d + 1 - i = d + 1 := by omega
      have h4 : i + d + 1 - (i + 1) = d := by omega
      have h5 : (i + 1 ≤ i + d + 1 ∧ i + d + 1 < i + 1 + bs.length) ↔
          (i ≤ i + d + 1 ∧ i + d + 1 < i + (bs.length + 1)) := by omega
      have h6 : i + d + 1 ≠ i := by omega
      simp only [h3, h4, h5, h6, List.getElem?_cons_succ, if_false]

/-- Inside the run a read gives the byte of the run. -/
theorem memory_read_writeAll_inside (m : Memory) {i k : Nat} {bs : List Byte} (h : k < bs.length) :
    (m.writeAll i bs).read (i + k) = some bs[k] := by
  rw [memory_read_writeAll, if_pos ⟨by omega, by omega⟩]
  simp [h]

/-- Outside the run a read gives what it gave before. -/
theorem memory_read_writeAll_outside (m : Memory) {i j : Nat} {bs : List Byte} (h : j < i ∨ i + bs.length ≤ j) :
    (m.writeAll i bs).read j = m.read j := by
  rw [memory_read_writeAll, if_neg (by omega)]

/-- A run written from index 0 stands there. -/
theorem memory_holds_writeAll (m : Memory) (bs : List Byte) : (m.writeAll 0 bs).Holds bs := by
  intro i h
  simpa using memory_read_writeAll_inside m (i := 0) h

/-- A run of writes keeps the canonical form. -/
theorem memory_wf_writeAll {m : Memory} (i : Nat) (bs : List Byte) (h : m.wf = true) :
    (m.writeAll i bs).wf = true := by
  induction bs generalizing m i with
  | nil => exact h
  | cons b bs ih => exact ih (i + 1) (memory_wf_write i b h)

/-- A run of writes inside an index range keeps a store inside it. -/
theorem memory_within_writeAll {m : Memory} {n i : Nat} (bs : List Byte) (hi : i + bs.length ≤ n)
    (h : m.within n) : (m.writeAll i bs).within n := by
  induction bs generalizing m i with
  | nil => exact h
  | cons b bs ih =>
    simp only [List.length_cons] at hi
    exact ih (by omega) (memory_within_write b (by omega) h)

/-- A run of writes keeps a fill level. -/
theorem memory_filled_writeAll {m : Memory} {n : Nat} (i : Nat) (bs : List Byte) (h : m.filled n) :
    (m.writeAll i bs).filled n := by
  induction bs generalizing m i with
  | nil => exact h
  | cons b bs ih => exact ih (i + 1) (memory_filled_write i b h)

/-- A store that holds bytes from index 0 is filled up to their number. -/
theorem memory_filled_of_holds {m : Memory} {bs : List Byte} (h : m.Holds bs) : m.filled bs.length := by
  intro i hi
  simp [h i hi]

/-- A filled store holds some list of bytes of that length. -/
theorem memory_exists_holds {m : Memory} {n : Nat} (h : m.filled n) :
    ∃ bs : List Byte, bs.length = n ∧ m.Holds bs := by
  refine ⟨(List.range n).map (fun i => (m.read i).getD 0), by simp, fun i hi => ?_⟩
  have hn : i < n := by simpa using hi
  obtain ⟨b, hb⟩ := Option.isSome_iff_exists.1 (h i hn)
  simp [hb]

/-- A store holds an appended list when it holds its first part and the second part behind it. -/
theorem memory_holds_append {m : Memory} {p q : List Byte} :
    m.Holds (p ++ q) ↔ m.Holds p ∧ ∀ k, ∀ h : k < q.length, m.read (p.length + k) = some q[k] := by
  constructor
  · intro h
    refine ⟨fun i hi => ?_, fun k hk => ?_⟩
    · rw [h i (by simp; omega), List.getElem_append_left hi]
    · rw [h (p.length + k) (by simp; omega), List.getElem_append_right (by omega)]
      simp
  · rintro ⟨hp, hq⟩ i hi
    by_cases hlt : i < p.length
    · rw [hp i hlt, List.getElem_append_left hlt]
    · obtain ⟨k, rfl⟩ := Nat.exists_eq_add_of_le (Nat.le_of_not_lt hlt)
      simp only [List.length_append] at hi
      rw [hq k (by omega), List.getElem_append_right (by omega)]
      simp

/-- The bytes a store holds are determined by their number. -/
theorem memory_holds_unique {m : Memory} {p q : List Byte} (hp : m.Holds p) (hq : m.Holds q)
    (h : p.length = q.length) : p = q := by
  refine List.ext_getElem h fun i h1 h2 => ?_
  have := (hp i h1).symm.trans (hq i h2)
  simpa using this

end Sys2Proof.Machine
end

