-- ==== Sys2Proof/Laws/State.lean ====
section
/-! SUPPORT. One lemma per field per update of the shared operations, each true by `rfl`, so that no proof unfolds a
record update. -/

namespace Sys2Proof.Machine

/-! ### `respond` -/

@[simp] theorem respond_crc (c : Code) (d : Word) (s : State) : (respond c d s).crc = s.crc := rfl
@[simp] theorem respond_ver (c : Code) (d : Word) (s : State) : (respond c d s).ver = s.ver := rfl
@[simp] theorem respond_flg (c : Code) (d : Word) (s : State) : (respond c d s).flg = s.flg := rfl
@[simp] theorem respond_txid (c : Code) (d : Word) (s : State) : (respond c d s).txid = s.txid := rfl
@[simp] theorem respond_len (c : Code) (d : Word) (s : State) : (respond c d s).len = s.len := rfl
@[simp] theorem respond_csum (c : Code) (d : Word) (s : State) : (respond c d s).csum = s.csum := rfl
@[simp] theorem respond_pl (c : Code) (d : Word) (s : State) : (respond c d s).pl = s.pl := rfl
@[simp] theorem respond_buf (c : Code) (d : Word) (s : State) : (respond c d s).buf = s.buf := rfl
@[simp] theorem respond_cnt (c : Code) (d : Word) (s : State) : (respond c d s).cnt = s.cnt := rfl
@[simp] theorem respond_ecode (c : Code) (d : Word) (s : State) : (respond c d s).ecode = s.ecode := rfl
@[simp] theorem respond_pending (c : Code) (d : Word) (s : State) : (respond c d s).pending = s.pending := rfl
@[simp] theorem respond_resp (c : Code) (d : Word) (s : State) : (respond c d s).resp = some ⟨c, d⟩ := rfl

/-! ### `takeFailure` -/

@[simp] theorem takeFailure_crc (c : Code) (s : State) : (takeFailure c s).crc = s.crc := rfl
@[simp] theorem takeFailure_ver (c : Code) (s : State) : (takeFailure c s).ver = s.ver := rfl
@[simp] theorem takeFailure_flg (c : Code) (s : State) : (takeFailure c s).flg = s.flg := rfl
@[simp] theorem takeFailure_txid (c : Code) (s : State) : (takeFailure c s).txid = s.txid := rfl
@[simp] theorem takeFailure_len (c : Code) (s : State) : (takeFailure c s).len = s.len := rfl
@[simp] theorem takeFailure_csum (c : Code) (s : State) : (takeFailure c s).csum = s.csum := rfl
@[simp] theorem takeFailure_pl (c : Code) (s : State) : (takeFailure c s).pl = s.pl := rfl
@[simp] theorem takeFailure_buf (c : Code) (s : State) : (takeFailure c s).buf = s.buf := rfl
@[simp] theorem takeFailure_cnt (c : Code) (s : State) : (takeFailure c s).cnt = s.cnt := rfl
@[simp] theorem takeFailure_ecode (c : Code) (s : State) :
    (takeFailure c s).ecode = if s.ecode = 0 then codeBits c else s.ecode := rfl
@[simp] theorem takeFailure_pending (c : Code) (s : State) : (takeFailure c s).pending = s.pending := rfl
@[simp] theorem takeFailure_resp (c : Code) (s : State) : (takeFailure c s).resp = some ⟨c, 0⟩ := rfl

/-! ### `resetBlock` -/

@[simp] theorem resetBlock_crc (s : State) : (resetBlock s).crc = 0 := rfl
@[simp] theorem resetBlock_ver (s : State) : (resetBlock s).ver = 0 := rfl
@[simp] theorem resetBlock_flg (s : State) : (resetBlock s).flg = 0 := rfl
@[simp] theorem resetBlock_txid (s : State) : (resetBlock s).txid = 0 := rfl
@[simp] theorem resetBlock_len (s : State) : (resetBlock s).len = 0 := rfl
@[simp] theorem resetBlock_csum (s : State) : (resetBlock s).csum = 0 := rfl
@[simp] theorem resetBlock_pl (s : State) : (resetBlock s).pl = [] := rfl
@[simp] theorem resetBlock_buf (s : State) : (resetBlock s).buf = [] := rfl
@[simp] theorem resetBlock_cnt (s : State) : (resetBlock s).cnt = 0 := rfl
@[simp] theorem resetBlock_ecode (s : State) : (resetBlock s).ecode = 0 := rfl
@[simp] theorem resetBlock_pending (s : State) : (resetBlock s).pending = s.pending := rfl
@[simp] theorem resetBlock_resp (s : State) : (resetBlock s).resp = none := rfl

/-! ### `setStore` -/

@[simp] theorem setStore_crc (st : Store) (m : Memory) (s : State) : (setStore st m s).crc = s.crc := by
  cases st <;> rfl
@[simp] theorem setStore_ver (st : Store) (m : Memory) (s : State) : (setStore st m s).ver = s.ver := by
  cases st <;> rfl
@[simp] theorem setStore_flg (st : Store) (m : Memory) (s : State) : (setStore st m s).flg = s.flg := by
  cases st <;> rfl
@[simp] theorem setStore_txid (st : Store) (m : Memory) (s : State) : (setStore st m s).txid = s.txid := by
  cases st <;> rfl
@[simp] theorem setStore_len (st : Store) (m : Memory) (s : State) : (setStore st m s).len = s.len := by
  cases st <;> rfl
@[simp] theorem setStore_csum (st : Store) (m : Memory) (s : State) : (setStore st m s).csum = s.csum := by
  cases st <;> rfl
@[simp] theorem setStore_cnt (st : Store) (m : Memory) (s : State) : (setStore st m s).cnt = s.cnt := by
  cases st <;> rfl
@[simp] theorem setStore_ecode (st : Store) (m : Memory) (s : State) : (setStore st m s).ecode = s.ecode := by
  cases st <;> rfl
@[simp] theorem setStore_pending (st : Store) (m : Memory) (s : State) : (setStore st m s).pending = s.pending := by
  cases st <;> rfl
@[simp] theorem setStore_resp (st : Store) (m : Memory) (s : State) : (setStore st m s).resp = s.resp := by
  cases st <;> rfl
@[simp] theorem setStore_pl_pl (m : Memory) (s : State) : (setStore .pl m s).pl = m := rfl
@[simp] theorem setStore_pl_buf (m : Memory) (s : State) : (setStore .pl m s).buf = s.buf := rfl
@[simp] theorem setStore_buf_buf (m : Memory) (s : State) : (setStore .buf m s).buf = m := rfl
@[simp] theorem setStore_buf_pl (m : Memory) (s : State) : (setStore .buf m s).pl = s.pl := rfl
@[simp] theorem storeOf_pl (s : State) : storeOf .pl s = s.pl := rfl
@[simp] theorem storeOf_buf (s : State) : storeOf .buf s = s.buf := rfl
@[simp] theorem storeOf_setStore (st : Store) (m : Memory) (s : State) : storeOf st (setStore st m s) = m := by
  cases st <;> rfl
@[simp] theorem setStore_setStore (st : Store) (m n : Memory) (s : State) :
    setStore st n (setStore st m s) = setStore st n s := by
  cases st <;> rfl
@[simp] theorem storeSize_pl : storeSize .pl = 255 := rfl
@[simp] theorem storeSize_buf : storeSize .buf = 260 := rfl

end Sys2Proof.Machine
end

