-- ==== Sys2Proof/Laws/Ops.lean ====
section
/-! SUPPORT. For each shared operation, once, everything it can do. Proofs cite these and unfold no operation. -/

namespace Sys2Proof.Machine

/-! ### Reads -/

/-- What a byte read can answer. -/
theorem readByte_eq_ok_iff {st : Store} {i : Nat} {s : State} {b : Byte} :
    readByte st i s = .ok b ↔ i < storeSize st ∧ (storeOf st s).read i = some b := by
  unfold readByte
  split
  · split <;> simp_all
  · simp_all

/-- A byte read that is in range and written. -/
theorem readByte_eq_ok {st : Store} {i : Nat} {s : State} {b : Byte} (hi : i < storeSize st)
    (h : (storeOf st s).read i = some b) : readByte st i s = .ok b :=
  readByte_eq_ok_iff.2 ⟨hi, h⟩

/-- What a read of a run of bytes can answer. -/
theorem readBytes_eq_ok_iff {st : Store} {i n : Nat} {s : State} {bs : List Byte} :
    readBytes st i n s = .ok bs ↔
      bs.length = n ∧ ∀ k, ∀ h : k < bs.length, i + k < storeSize st ∧ (storeOf st s).read (i + k) = some bs[k] := by
  induction n generalizing i bs with
  | zero =>
    simp only [readBytes, Except.ok.injEq]
    constructor
    · rintro rfl
      exact ⟨rfl, fun k h => absurd h (by simp)⟩
    · rintro ⟨h, -⟩
      exact (List.length_eq_zero_iff.1 h).symm
  | succ n ih =>
    simp only [readBytes]
    constructor
    · intro h
      split at h
      · cases h
      · rename_i b hb
        split at h
        · cases h
        · rename_i cs hcs
          cases h
          obtain ⟨hl, hr⟩ := ih.1 hcs
          obtain ⟨hi, hb⟩ := readByte_eq_ok_iff.1 hb
          refine ⟨by simp [hl], fun k hk => ?_⟩
          cases k with
          | zero => exact ⟨hi, hb⟩
          | succ k =>
            have := hr k (by simpa using hk)
            simpa [Nat.add_assoc, Nat.add_comm 1 k] using this
    · rintro ⟨hl, hr⟩
      cases bs with
      | nil => simp at hl
      | cons b cs =>
        have h0 := hr 0 (by simp)
        rw [readByte_eq_ok (show i < storeSize st from h0.1) (show (storeOf st s).read i = some b from h0.2)]
        have : readBytes st (i + 1) n s = .ok cs := by
          refine ih.2 ⟨by simpa using hl, fun k hk => ?_⟩
          have := hr (k + 1) (by simpa using hk)
          simpa [Nat.add_assoc, Nat.add_comm 1 k] using this
        simp [this]

/-- A read of a run that is in range and holds `bs`. -/
theorem readBytes_eq_ok {st : Store} {s : State} {bs : List Byte} (hs : bs.length ≤ storeSize st)
    (h : (storeOf st s).Holds bs) : readBytes st 0 bs.length s = .ok bs :=
  readBytes_eq_ok_iff.2 ⟨rfl, fun k hk => ⟨by omega, by simpa using h k hk⟩⟩

/-- A read of the first `n` of the bytes a store holds. -/
theorem readBytes_take {st : Store} {s : State} {bs : List Byte} {n : Nat} (hn : n ≤ bs.length)
    (hs : n ≤ storeSize st) (h : (storeOf st s).Holds bs) : readBytes st 0 n s = .ok (bs.take n) := by
  refine readBytes_eq_ok_iff.2 ⟨by simp [hn], fun k hk => ?_⟩
  simp only [List.length_take] at hk
  exact ⟨by omega, by simpa using h k (by omega)⟩

/-! ### Writes -/

/-- What a byte write can answer. -/
theorem writeByte_eq_ok_iff {st : Store} {i : Nat} {b : Byte} {s t : State} :
    writeByte st i b s = .ok t ↔ i < storeSize st ∧ t = setStore st ((storeOf st s).write i b) s := by
  unfold writeByte
  split <;> simp_all [eq_comm]

/-- A byte write in range. -/
theorem writeByte_eq_ok {st : Store} {i : Nat} (b : Byte) (s : State) (hi : i < storeSize st) :
    writeByte st i b s = .ok (setStore st ((storeOf st s).write i b) s) :=
  writeByte_eq_ok_iff.2 ⟨hi, rfl⟩

/-- A run of writes in range. -/
theorem writeBytes_eq_ok {st : Store} {i : Nat} (bs : List Byte) (s : State) (h : i + bs.length ≤ storeSize st) :
    writeBytes st i bs s = .ok (setStore st ((storeOf st s).writeAll i bs) s) := by
  induction bs generalizing i s with
  | nil => cases st <;> rfl
  | cons b bs ih =>
    simp only [List.length_cons] at h
    simp only [writeBytes, writeByte_eq_ok b s (show i < storeSize st by omega)]
    rw [ih _ (by omega)]
    simp [Memory.writeAll]

/-- What a run of writes can answer. -/
theorem writeBytes_eq_ok_inv {st : Store} {i : Nat} {bs : List Byte} {s t : State}
    (h : writeBytes st i bs s = .ok t) :
    t = setStore st ((storeOf st s).writeAll i bs) s ∧ (bs = [] ∨ i + bs.length ≤ storeSize st) := by
  induction bs generalizing i s with
  | nil => cases h; cases st <;> exact ⟨rfl, .inl rfl⟩
  | cons b bs ih =>
    simp only [writeBytes] at h
    split at h
    · cases h
    · rename_i u hu
      obtain ⟨hi, rfl⟩ := writeByte_eq_ok_iff.1 hu
      obtain ⟨rfl, h'⟩ := ih h
      refine ⟨by simp [Memory.writeAll], .inr ?_⟩
      rcases h' with rfl | h'
      · simp only [List.length_cons, List.length_nil]
        omega
      · simp only [List.length_cons]
        omega

/-! ### Sequencing -/

@[simp] theorem orFault_ok {α : Type} (a : α) (k : α → Result) : orFault (.ok a) k = k a := rfl

@[simp] theorem orFault_error {α : Type} (e : Fault) (k : α → Result) : orFault (.error e) k = .fault e := rfl

/-- An access followed by more answers next exactly when both do. -/
theorem orFault_eq_next_iff {α : Type} {r : Except Fault α} {k : α → Result} {t : State} :
    orFault r k = .next t ↔ ∃ a, r = .ok a ∧ k a = .next t := by
  cases r <;> simp

@[simp] theorem orBadOperand_some {α : Type} (a : α) (s : State) (k : α → Result) :
    orBadOperand (some a) s k = k a := rfl

@[simp] theorem orBadOperand_none {α : Type} (s : State) (k : α → Result) :
    orBadOperand none s k = .next (takeFailure .badOperand s) := rfl

/-- A checked operand followed by more: the failure, or what follows. -/
theorem orBadOperand_eq_next_iff {α : Type} {r : Option α} {s t : State} {k : α → Result} :
    orBadOperand r s k = .next t ↔ (r = none ∧ t = takeFailure .badOperand s) ∨ ∃ a, r = some a ∧ k a = .next t := by
  cases r <;> simp [eq_comm]

@[simp] theorem done_eq (s : State) : done s = .next (respond .ok 0x0000 s) := rfl

@[simp] theorem answer_eq (v : Word) (s : State) : answer v s = .next (respond .ok v s) := rfl

@[simp] theorem fail_eq (c : Code) (s : State) : fail c s = .next (takeFailure c s) := rfl

/-! ### Operands -/

/-- A version operand is in range exactly below 4 (rule R120). -/
theorem versionOperand_eq (b : Byte) :
    versionOperand b = if b.toNat < 4 then some (BitVec.ofNat 2 b.toNat) else none := by
  have h : b.extractLsb' 0 2 = BitVec.ofNat 2 b.toNat := by
    apply BitVec.eq_of_toNat_eq
    simp
  unfold versionOperand
  rw [h]
  rfl

/-- A flags operand is in range exactly below 64 (rule R121). -/
theorem flagsOperand_eq (b : Byte) :
    flagsOperand b = if b.toNat < 64 then some (BitVec.ofNat 6 b.toNat) else none := by
  have h : b.extractLsb' 0 6 = BitVec.ofNat 6 b.toNat := by
    apply BitVec.eq_of_toNat_eq
    simp
  unfold flagsOperand
  rw [h]
  rfl

/-- What a payload index operand can answer (rule R131). -/
theorem payloadIndex_eq_some_iff {k : Byte} {s : State} {i : Nat} :
    payloadIndex k s = some i ↔ i = k.toNat ∧ k.toNat < s.len.toNat := by
  unfold payloadIndex
  split <;> simp_all [eq_comm]

/-- What a buffer index operand can answer (rule R153). -/
theorem bufferIndex_eq_some_iff {k : Byte} {s : State} {i : Nat} :
    bufferIndex k s = some i ↔ i = k.toNat ∧ k.toNat < s.cnt.toNat := by
  unfold bufferIndex
  split <;> simp_all [eq_comm]

/-- What a high buffer index operand can answer (rule R154). -/
theorem bufferIndexHigh_eq_some_iff {k : Byte} {s : State} {i : Nat} :
    bufferIndexHigh k s = some i ↔ i = 256 + k.toNat ∧ k.toNat ≤ 3 ∧ 256 + k.toNat < s.cnt.toNat := by
  unfold bufferIndexHigh
  split <;> simp_all [eq_comm]

/-- Zero extension keeps the number (rule R11). -/
theorem zext16_eq {n : Nat} (v : BitVec n) : zext16 v = BitVec.ofNat 16 v.toNat := by
  apply BitVec.eq_of_toNat_eq
  simp [zext16]

end Sys2Proof.Machine
end

