-- ==== Sys2Proof/Laws/Codec.lean ====
section
/-! SUPPORT. For each codec command, once, everything it can do when it answers a next state (rules R160 to R162). -/

namespace Sys2Proof.Machine

/-! ### Bytes and checksums -/

/-- The low byte as a number (rule R52). -/
theorem lowByte_eq (c : Word) : lowByte c = BitVec.ofNat 8 (c.toNat % 256) := by
  apply BitVec.eq_of_toNat_eq
  simp [lowByte]

/-- The high byte as a number (rule R52). -/
theorem highByte_eq (c : Word) : highByte c = BitVec.ofNat 8 (c.toNat / 256) := by
  apply BitVec.eq_of_toNat_eq
  simp [highByte, Nat.shiftRight_eq_div_pow]

/-- Two trailer bytes as a number: the second counts 256 (rule R52). -/
theorem joinBytes_toNat (high low : Byte) : (joinBytes high low).toNat = low.toNat + 256 * high.toNat := by
  have hl := low.isLt
  simp only [joinBytes, BitVec.toNat_append]
  rw [← Nat.shiftLeft_add_eq_or_of_lt hl, Nat.shiftLeft_eq]
  omega

/-- The two bytes of a checksum joined give it back. -/
theorem joinBytes_high_low (c : Word) : joinBytes (highByte c) (lowByte c) = c := by
  apply BitVec.eq_of_toNat_eq
  have hc := c.isLt
  rw [joinBytes_toNat, highByte_eq, lowByte_eq]
  simp only [BitVec.toNat_ofNat]
  omega

/-- The low byte of two joined bytes. -/
theorem lowByte_joinBytes (high low : Byte) : lowByte (joinBytes high low) = low := by
  apply BitVec.eq_of_toNat_eq
  have hl := low.isLt
  rw [lowByte_eq, joinBytes_toNat]
  simp only [BitVec.toNat_ofNat]
  omega

/-- The high byte of two joined bytes. -/
theorem highByte_joinBytes (high low : Byte) : highByte (joinBytes high low) = high := by
  apply BitVec.eq_of_toNat_eq
  have hl := low.isLt
  have hh := high.isLt
  rw [highByte_eq, joinBytes_toNat]
  simp only [BitVec.toNat_ofNat]
  omega

/-- The trailer of two joined bytes is the two bytes, low first. -/
theorem trailer_joinBytes (high low : Byte) : trailer (joinBytes high low) = [low, high] := by
  simp [trailer, lowByte_joinBytes, highByte_joinBytes]

/-- The trailer on a body is the wire image of the body. -/
theorem body_append_trailer (body : List Byte) : body ++ trailer (crc16 body) = wireImage body := by
  simp [trailer, wireImage, lowByte_eq, highByte_eq]

theorem wireImage_length (body : List Byte) : (wireImage body).length = body.length + 2 := by
  simp [wireImage]

theorem frameBody_length (b0 id l : Byte) (p : List Byte) : (frameBody b0 id l p).length = 3 + p.length := by
  simp only [frameBody, List.length_append, List.length_cons, List.length_nil]

/-! ### Header byte 0 -/

/-- Packing as a number (rule R71). -/
theorem packB0_toNat (v : Version) (f : Flags) : (packB0 v f).toNat = v.toNat * 64 + f.toNat := by
  have hf := f.isLt
  simp only [packB0, BitVec.toNat_append]
  rw [← Nat.shiftLeft_add_eq_or_of_lt hf, Nat.shiftLeft_eq]

/-- The version of a header byte as a number (rule R71). -/
theorem b0Version_toNat (b : Byte) : (b0Version b).toNat = b.toNat / 64 := by
  have hb := b.isLt
  simp only [b0Version, BitVec.extractLsb'_toNat, Nat.shiftRight_eq_div_pow]
  omega

/-- The flags of a header byte as a number (rule R71). -/
theorem b0Flags_toNat (b : Byte) : (b0Flags b).toNat = b.toNat % 64 := by
  simp [b0Flags]

/-- Valid flags as numbers (rule R75). -/
theorem flagsOk_iff (f : Flags) : flagsOk f = true ↔ f.toNat % 8 ≠ 0 ∧ f.toNat / 32 % 2 = 0 := by
  revert f
  decide

/-! ### ENCODE -/

/-- What `ENCODE` can do (rule R160). -/
theorem execEncode_inv {s t : State} (h : execEncode s = .next t) :
    ∃ p : List Byte, p.length = s.len.toNat ∧ s.pl.Holds p ∧
      t = respond .ok 0
        { s with
          buf := s.buf.writeAll 0 (wireImage (frameBody (packB0 s.ver s.flg) s.txid s.len p))
          cnt := BitVec.ofNat 9 (5 + s.len.toNat)
          csum := crc16 (frameBody (packB0 s.ver s.flg) s.txid s.len p) } := by
  simp only [execEncode, orFault_eq_next_iff, done_eq, Host.Outcome.next.injEq] at h
  obtain ⟨p, hp, u, hu, rfl⟩ := h
  obtain ⟨hl, hr⟩ := readBytes_eq_ok_iff.1 hp
  obtain ⟨rfl, -⟩ := writeBytes_eq_ok_inv hu
  refine ⟨p, hl, fun i hi => by simpa using (hr i hi).2, ?_⟩
  rw [body_append_trailer]
  rfl

/-! ### DECODE -/

/-- What a successful `DECODE` does (rule R161, step 8), for the header bytes, the payload and the trailer read. -/
def decoded (b0 id l : Byte) (p : List Byte) (c : Word) (s : State) : State :=
  respond .ok 0
    { s with ver := b0Version b0, flg := b0Flags b0, txid := id, len := l, csum := c, pl := s.pl.writeAll 0 p }

/-- What `DECODE` can do (rules R161, R205): one of its four failures, or the frame loaded. -/
theorem execDecode_inv {s t : State} (h : execDecode s = .next t) :
    (∃ c ∈ [Code.truncated, .unsupportedVersion, .invalidFlags, .checksumMismatch], t = takeFailure c s) ∨
    ∃ (b0 id l : Byte) (p : List Byte),
      p.length = l.toNat ∧ 5 + l.toNat ≤ s.cnt.toNat ∧
      b0Version b0 = Config.supportedVersion ∧ flagsOk (b0Flags b0) = true ∧
      s.buf.Holds (wireImage (frameBody b0 id l p)) ∧
      t = decoded b0 id l p (crc16 (frameBody b0 id l p)) s := by
  unfold execDecode at h
  split at h
  · exact .inl ⟨.truncated, by simp, by simpa [eq_comm] using h⟩
  simp only [orFault_eq_next_iff] at h
  obtain ⟨b0, h0, id, h1, l, h2, h⟩ := h
  split at h
  · exact .inl ⟨.unsupportedVersion, by simp, by simpa [eq_comm] using h⟩
  rename_i hv
  split at h
  · exact .inl ⟨.invalidFlags, by simp, by simpa [eq_comm] using h⟩
  rename_i hf
  unfold decodeExtent at h
  split at h
  · exact .inl ⟨.truncated, by simp, by simpa [eq_comm] using h⟩
  rename_i hc
  simp only [orFault_eq_next_iff] at h
  obtain ⟨body, hb, low, hlow, high, hhigh, h⟩ := h
  split at h
  · exact .inl ⟨.checksumMismatch, by simp, by simpa [eq_comm] using h⟩
  rename_i hx
  simp only [ne_eq, Decidable.not_not] at hx hv
  simp only [orFault_eq_next_iff, done_eq, Host.Outcome.next.injEq] at h
  obtain ⟨u, hu, rfl⟩ := h
  obtain ⟨rfl, -⟩ := writeBytes_eq_ok_inv hu
  obtain ⟨hl, hr⟩ := readBytes_eq_ok_iff.1 hb
  simp only [Config.headerBytes] at hl hr
  simp only [Config.minFrameBytes] at hc
  obtain ⟨-, h0⟩ := readByte_eq_ok_iff.1 h0
  obtain ⟨-, h1⟩ := readByte_eq_ok_iff.1 h1
  obtain ⟨-, h2⟩ := readByte_eq_ok_iff.1 h2
  obtain ⟨-, hlow⟩ := readByte_eq_ok_iff.1 hlow
  obtain ⟨-, hhigh⟩ := readByte_eq_ok_iff.1 hhigh
  simp only [Nat.zero_add, storeOf_buf] at hr h0 h1 h2 hlow hhigh
  obtain ⟨x0, x1, x2, p, rfl⟩ : ∃ x0 x1 x2 p, body = x0 :: x1 :: x2 :: p := by
    rcases body with _ | ⟨x0, _ | ⟨x1, _ | ⟨x2, p⟩⟩⟩
    · simp at hl; omega
    · simp at hl; omega
    · simp at hl; omega
    · exact ⟨_, _, _, _, rfl⟩
  have e0 : x0 = b0 := by
    have := (hr 0 (by simp)).2
    simp only [h0, List.getElem_cons_zero, Option.some.injEq] at this
    exact this.symm
  have e1 : x1 = id := by
    have := (hr 1 (by simp)).2
    simp only [h1, List.getElem_cons_succ, List.getElem_cons_zero, Option.some.injEq] at this
    exact this.symm
  have e2 : x2 = l := by
    have := (hr 2 (by simp)).2
    simp only [h2, List.getElem_cons_succ, List.getElem_cons_zero, Option.some.injEq] at this
    exact this.symm
  subst e0 e1 e2
  have hp : p.length = x2.toNat := by simp at hl; omega
  refine .inr ⟨x0, x1, x2, p, hp, by omega, hv, by simpa using hf, ?_, ?_⟩
  · have hbody : frameBody x0 x1 x2 p = x0 :: x1 :: x2 :: p := rfl
    rw [← body_append_trailer, hbody, ← hx, trailer_joinBytes]
    refine memory_holds_append.2 ⟨fun i hi => (hr i hi).2, fun k hk => ?_⟩
    rcases (show k = 0 ∨ k = 1 by simp at hk; omega) with rfl | rfl
    · rw [show (x0 :: x1 :: x2 :: p).length + 0 = 3 + x2.toNat by simp; omega, hlow]
      rfl
    · rw [show (x0 :: x1 :: x2 :: p).length + 1 = 4 + x2.toNat by simp; omega, hhigh]
      rfl
  · have : frameBody x0 x1 x2 p = x0 :: x1 :: x2 :: p := rfl
    rw [this, ← hx]
    rfl

/-! ### TAG -/

/-- What `TAG` can do (rules R162, R206): one of its two failures, or the id and the trailer replaced. -/
theorem execTag_inv {s t : State} {id : Byte} (h : execTag id s = .next t) :
    (∃ c ∈ [Code.truncated, .unsupportedVersion], t = takeFailure c s) ∨
    ∃ body : List Byte,
      5 ≤ s.cnt.toNat ∧ s.cnt.toNat ≤ 260 ∧ body.length = s.cnt.toNat - 2 ∧ (s.buf.write 1 id).Holds body ∧
      t = respond .ok 0 { s with buf := (s.buf.write 1 id).writeAll (s.cnt.toNat - 2) (trailer (crc16 body)) } := by
  unfold execTag at h
  split at h
  · exact .inl ⟨.truncated, by simp, by simpa [eq_comm] using h⟩
  rename_i hc
  simp only [Config.minFrameBytes] at hc
  simp only [orFault_eq_next_iff] at h
  obtain ⟨b0, -, h⟩ := h
  split at h
  · exact .inl ⟨.unsupportedVersion, by simp, by simpa [eq_comm] using h⟩
  simp only [orFault_eq_next_iff, done_eq, Host.Outcome.next.injEq, Config.trailerBytes] at h
  obtain ⟨u, hu, body, hb, v, hv, rfl⟩ := h
  obtain ⟨-, rfl⟩ := writeByte_eq_ok_iff.1 hu
  obtain ⟨hl, hr⟩ := readBytes_eq_ok_iff.1 hb
  obtain ⟨rfl, hw⟩ := writeBytes_eq_ok_inv hv
  refine .inr ⟨body, by omega, ?_, hl, fun i hi => by simpa using (hr i hi).2, rfl⟩
  rcases hw with hw | hw
  · exact absurd hw (by simp [trailer])
  · simp only [trailer, List.length_cons, List.length_nil, storeSize_buf] at hw
    omega

end Sys2Proof.Machine
end

