-- ==== Sys2Proof/Laws/PerInstr.lean ====
section
/-! SUPPORT. Facts about every command as a term, one lemma per constructor: that it is well formed (rule R85), and
which byte its encoding carries as opcode and which as operand (rules R85, R87). -/

namespace Sys2Proof.Laws

/-- The opcode field of an assembled word (rule R85). -/
theorem opcodeField_append (op b : Byte) : opcodeField (op ++ b) = op := by
  apply BitVec.eq_of_toNat_eq
  have hb := b.isLt
  have ho := op.isLt
  simp only [opcodeField, BitVec.extractLsb'_toNat, BitVec.toNat_append, Nat.shiftRight_eq_div_pow]
  rw [← Nat.shiftLeft_add_eq_or_of_lt hb, Nat.shiftLeft_eq]
  omega

/-- The operand field of an assembled word (rule R85). -/
theorem operandField_append (op b : Byte) : operandField (op ++ b) = b := by
  apply BitVec.eq_of_toNat_eq
  have hb := b.isLt
  simp only [operandField, BitVec.extractLsb'_toNat, BitVec.toNat_append, Nat.shiftRight_eq_div_pow]
  rw [← Nat.shiftLeft_add_eq_or_of_lt hb, Nat.shiftLeft_eq]
  omega

/-! ### Every command is well formed -/

/-- A command carries an operand exactly when its format has one (rule R85). -/
def OperandShape.Statement (i : Instr) : Prop :=
  i.wf = true

theorem OperandShape.nop : OperandShape.Statement (.nop) := rfl
theorem OperandShape.reset : OperandShape.Statement (.reset) := rfl
theorem OperandShape.clrerr : OperandShape.Statement (.clrerr) := rfl
theorem OperandShape.rdstat : OperandShape.Statement (.rdstat) := rfl
theorem OperandShape.crcinit : OperandShape.Statement (.crcinit) := rfl
theorem OperandShape.crcbyte (imm8 : Byte) : OperandShape.Statement (.crcbyte imm8) := rfl
theorem OperandShape.rdcrc : OperandShape.Statement (.rdcrc) := rfl
theorem OperandShape.setver (imm8 : Byte) : OperandShape.Statement (.setver imm8) := rfl
theorem OperandShape.setflg (imm8 : Byte) : OperandShape.Statement (.setflg imm8) := rfl
theorem OperandShape.setid (imm8 : Byte) : OperandShape.Statement (.setid imm8) := rfl
theorem OperandShape.plclr : OperandShape.Statement (.plclr) := rfl
theorem OperandShape.plpush (imm8 : Byte) : OperandShape.Statement (.plpush imm8) := rfl
theorem OperandShape.setb0 (imm8 : Byte) : OperandShape.Statement (.setb0 imm8) := rfl
theorem OperandShape.rdver : OperandShape.Statement (.rdver) := rfl
theorem OperandShape.rdflg : OperandShape.Statement (.rdflg) := rfl
theorem OperandShape.rdid : OperandShape.Statement (.rdid) := rfl
theorem OperandShape.rdlen : OperandShape.Statement (.rdlen) := rfl
theorem OperandShape.rdcsum : OperandShape.Statement (.rdcsum) := rfl
theorem OperandShape.rdpl (imm8 : Byte) : OperandShape.Statement (.rdpl imm8) := rfl
theorem OperandShape.rdclass : OperandShape.Statement (.rdclass) := rfl
theorem OperandShape.rdb0 : OperandShape.Statement (.rdb0) := rfl
theorem OperandShape.bufclr : OperandShape.Statement (.bufclr) := rfl
theorem OperandShape.bufpush (imm8 : Byte) : OperandShape.Statement (.bufpush imm8) := rfl
theorem OperandShape.rdcnt : OperandShape.Statement (.rdcnt) := rfl
theorem OperandShape.rdbuf (imm8 : Byte) : OperandShape.Statement (.rdbuf imm8) := rfl
theorem OperandShape.rdbufh (imm8 : Byte) : OperandShape.Statement (.rdbufh imm8) := rfl
theorem OperandShape.encode : OperandShape.Statement (.encode) := rfl
theorem OperandShape.decode : OperandShape.Statement (.decode) := rfl
theorem OperandShape.tag (imm8 : Byte) : OperandShape.Statement (.tag imm8) := rfl

/-! ### The two fields of a command's word -/

/-- The word of a command carries the opcode of its row in bits 15 to 8, and its operand, or zero, in bits 7 to 0
(rules R85, R87, R89). -/
def OpcodeByte.Statement (i : Instr) : Prop :=
  opcodeField (encode i) = i.mnemonic.opcode ∧ operandField (encode i) = i.operand?.getD 0x00

/-- The two fields, for any command. -/
theorem opcodeByte_all (i : Instr) : OpcodeByte.Statement i :=
  ⟨opcodeField_append _ _, operandField_append _ _⟩

theorem OpcodeByte.nop : OpcodeByte.Statement (.nop) := opcodeByte_all _
theorem OpcodeByte.reset : OpcodeByte.Statement (.reset) := opcodeByte_all _
theorem OpcodeByte.clrerr : OpcodeByte.Statement (.clrerr) := opcodeByte_all _
theorem OpcodeByte.rdstat : OpcodeByte.Statement (.rdstat) := opcodeByte_all _
theorem OpcodeByte.crcinit : OpcodeByte.Statement (.crcinit) := opcodeByte_all _
theorem OpcodeByte.crcbyte (imm8 : Byte) : OpcodeByte.Statement (.crcbyte imm8) := opcodeByte_all _
theorem OpcodeByte.rdcrc : OpcodeByte.Statement (.rdcrc) := opcodeByte_all _
theorem OpcodeByte.setver (imm8 : Byte) : OpcodeByte.Statement (.setver imm8) := opcodeByte_all _
theorem OpcodeByte.setflg (imm8 : Byte) : OpcodeByte.Statement (.setflg imm8) := opcodeByte_all _
theorem OpcodeByte.setid (imm8 : Byte) : OpcodeByte.Statement (.setid imm8) := opcodeByte_all _
theorem OpcodeByte.plclr : OpcodeByte.Statement (.plclr) := opcodeByte_all _
theorem OpcodeByte.plpush (imm8 : Byte) : OpcodeByte.Statement (.plpush imm8) := opcodeByte_all _
theorem OpcodeByte.setb0 (imm8 : Byte) : OpcodeByte.Statement (.setb0 imm8) := opcodeByte_all _
theorem OpcodeByte.rdver : OpcodeByte.Statement (.rdver) := opcodeByte_all _
theorem OpcodeByte.rdflg : OpcodeByte.Statement (.rdflg) := opcodeByte_all _
theorem OpcodeByte.rdid : OpcodeByte.Statement (.rdid) := opcodeByte_all _
theorem OpcodeByte.rdlen : OpcodeByte.Statement (.rdlen) := opcodeByte_all _
theorem OpcodeByte.rdcsum : OpcodeByte.Statement (.rdcsum) := opcodeByte_all _
theorem OpcodeByte.rdpl (imm8 : Byte) : OpcodeByte.Statement (.rdpl imm8) := opcodeByte_all _
theorem OpcodeByte.rdclass : OpcodeByte.Statement (.rdclass) := opcodeByte_all _
theorem OpcodeByte.rdb0 : OpcodeByte.Statement (.rdb0) := opcodeByte_all _
theorem OpcodeByte.bufclr : OpcodeByte.Statement (.bufclr) := opcodeByte_all _
theorem OpcodeByte.bufpush (imm8 : Byte) : OpcodeByte.Statement (.bufpush imm8) := opcodeByte_all _
theorem OpcodeByte.rdcnt : OpcodeByte.Statement (.rdcnt) := opcodeByte_all _
theorem OpcodeByte.rdbuf (imm8 : Byte) : OpcodeByte.Statement (.rdbuf imm8) := opcodeByte_all _
theorem OpcodeByte.rdbufh (imm8 : Byte) : OpcodeByte.Statement (.rdbufh imm8) := opcodeByte_all _
theorem OpcodeByte.encode : OpcodeByte.Statement (.encode) := opcodeByte_all _
theorem OpcodeByte.decode : OpcodeByte.Statement (.decode) := opcodeByte_all _
theorem OpcodeByte.tag (imm8 : Byte) : OpcodeByte.Statement (.tag imm8) := opcodeByte_all _

end Sys2Proof.Laws
end

