-- ==== Sys2Proof/Tests/Slice0.lean ====
section
/-! SUPPORT. The model's own tests: the decoding of a word written out for every command (`spec/30_encoding.md` rules
R85, R87), the ill-formed terms `WellFormed` refuses, single steps with the numbers of `spec/95_test_vectors.md`, and for
every statement with hypotheses a state and operands that meet them. -/

open Sys2Proof Sys2Proof.Machine

/-! ## Decoding: opcode and operand written out in bits (rules R85, R87) -/

theorem test_decode_nop : decode 0b0000000000000000 = .ok .nop := by decide
theorem test_decode_reset : decode 0b0000000100000000 = .ok .reset := by decide
theorem test_decode_clrerr : decode 0b0000001000000000 = .ok .clrerr := by decide
theorem test_decode_rdstat : decode 0b0000001100000000 = .ok .rdstat := by decide
theorem test_decode_crcinit : decode 0b0001000000000000 = .ok .crcinit := by decide
theorem test_decode_crcbyte : decode 0b0001000110100101 = .ok (.crcbyte 0xA5) := by decide
theorem test_decode_rdcrc : decode 0b0001001000000000 = .ok .rdcrc := by decide
theorem test_decode_setver : decode 0b0010000000000011 = .ok (.setver 0x03) := by decide
theorem test_decode_setflg : decode 0b0010000100010001 = .ok (.setflg 0x11) := by decide
theorem test_decode_setid : decode 0b0010001000110011 = .ok (.setid 0x33) := by decide
theorem test_decode_plclr : decode 0b0010001100000000 = .ok .plclr := by decide
theorem test_decode_plpush : decode 0b0010010010101010 = .ok (.plpush 0xAA) := by decide
theorem test_decode_setb0 : decode 0b0010010111000001 = .ok (.setb0 0xC1) := by decide
theorem test_decode_rdver : decode 0b0010100000000000 = .ok .rdver := by decide
theorem test_decode_rdflg : decode 0b0010100100000000 = .ok .rdflg := by decide
theorem test_decode_rdid : decode 0b0010101000000000 = .ok .rdid := by decide
theorem test_decode_rdlen : decode 0b0010101100000000 = .ok .rdlen := by decide
theorem test_decode_rdcsum : decode 0b0010110000000000 = .ok .rdcsum := by decide
theorem test_decode_rdpl : decode 0b0010110111111110 = .ok (.rdpl 0xFE) := by decide
theorem test_decode_rdclass : decode 0b0010111000000000 = .ok .rdclass := by decide
theorem test_decode_rdb0 : decode 0b0010111100000000 = .ok .rdb0 := by decide
theorem test_decode_bufclr : decode 0b0011000000000000 = .ok .bufclr := by decide
theorem test_decode_bufpush : decode 0b0011000110001000 = .ok (.bufpush 0x88) := by decide
theorem test_decode_rdcnt : decode 0b0011001000000000 = .ok .rdcnt := by decide
theorem test_decode_rdbuf : decode 0b0011001100010010 = .ok (.rdbuf 0x12) := by decide
theorem test_decode_rdbufh : decode 0b0011010000000010 = .ok (.rdbufh 0x02) := by decide
theorem test_decode_encode : decode 0b0100000000000000 = .ok .encode := by decide
theorem test_decode_decode : decode 0b0100000100000000 = .ok .decode := by decide
theorem test_decode_tag : decode 0b0100001000101010 = .ok (.tag 0x2A) := by decide

/-- Rule R88: an opcode that is not in the table, and an operand where the format has none. -/
theorem test_decode_refusals :
    decode 0xFFFF = .error (.unknownOpcode 0xFF) ∧ decode 0x0400 = .error (.unknownOpcode 0x04) ∧
    decode 0x2600 = .error (.unknownOpcode 0x26) ∧ decode 0x4300 = .error (.unknownOpcode 0x43) ∧
    decode 0x0001 = .error (.operandNotZero 0x00 0x01) ∧ decode 0x4101 = .error (.operandNotZero 0x41 0x01) := by
  decide

/-- Rule R87: the bits of the table's numbering are the word's bits. -/
theorem test_decodeTableWord :
    decodeTableWord 16 0x4201 = some (.tag 0x01) ∧ decodeTableWord 16 0x4101 = none := by
  decide

/-! ## Well-formedness: a term that each check refuses (rules R89, R90) -/

theorem test_wf_operand_missing : (AsmLine.command .setver []).wf = false := by decide
theorem test_wf_operand_unwanted : (AsmLine.command .decode [.dec 0]).wf = false := by decide
theorem test_wf_operand_out_of_range : (AsmLine.command .setid [.hex 256]).wf = false := by decide
theorem test_wf_character_not_printable : (AsmLine.command .crcbyte [.chr 0x1F]).wf = false := by decide
theorem test_wf_string_in_a_command : (AsmLine.command .crcbyte [.str [0x41]]).wf = false := by decide
theorem test_wf_empty_crc_list : (AsmLine.pseudo .crc16 []).wf = false := by decide
theorem test_wf_string_not_ascii : (AsmLine.pseudo .plload [.str [0x80]]).wf = false := by decide
theorem test_wf_list_out_of_range : (AsmLine.pseudo .bufload [.dec 1, .dec 256]).wf = false := by decide
theorem test_wf_accepted :
    (AsmLine.pseudo .plload []).wf = true ∧ (AsmLine.command .setid [.hex 255]).wf = true := by decide

/-- The text of rules R89 and R90 on a few lines. -/
theorem test_assembler :
    assembleText "CRCBYTE 'A' ; one byte".toList = some [0x1141] ∧ assembleText "SETFLG 17".toList = some [0x2111] ∧
    assembleText "PLLOAD \"ci\" 0x61".toList = some [0x2300, 0x2463, 0x2469, 0x2461] ∧
    assembleText "SETID 0x100".toList = none ∧ assembleText "  NOP  ".toList = some [0x0000] ∧
    assembleText "".toList = some [] ∧ assembleText "SETID ';' ; id".toList = some [0x223B] := by
  decide +kernel

/-! ## States and results the tests use -/

/-- The bytes `p` as payload. -/
def Tests.withPayload (s : State) (p : List Byte) : State :=
  { s with pl := Memory.writeAll [] 0 p, len := BitVec.ofNat 8 p.length }

/-- The bytes `m` as wire bytes. -/
def Tests.withWire (s : State) (m : List Byte) : State :=
  { s with buf := Memory.writeAll [] 0 m, cnt := BitVec.ofNat 9 m.length }

/-- The response to a command that is answered. -/
def Tests.answerOf : Result → Option Response
  | .next t => t.resp
  | .fault _ => none
  | .refused _ => none

/-- A part of the state after a command that is answered. -/
def Tests.after {α : Type} (r : Result) (f : State → α) : Option α :=
  match r with
  | .next t => some (f t)
  | .fault _ => none
  | .refused _ => none

open Tests

/-- The source's example frame (`spec/95_test_vectors.md` section 1.1). -/
def Tests.exampleFrame : List Byte :=
  [0x01, 0x01, 0x0F, 0x63, 0x69, 0x61, 0x6F, 0x5F, 0x73, 0x6F, 0x6E, 0x6F, 0x5F, 0x70, 0x69, 0x70, 0x70, 0x6F, 0x41,
    0x88]

/-- A frame of one payload byte (`spec/95_test_vectors.md` section 5). -/
def Tests.shortFrame : List Byte :=
  [0x05, 0xFF, 0x01, 0xFF, 0xE7, 0x5E]

theorem tests_holdsPayload {s : State} {p : List Byte} (h : p.length ≤ 255) : (withPayload s p).HoldsPayload p := by
  refine ⟨?_, memory_holds_writeAll _ _⟩
  simp only [withPayload, BitVec.toNat_ofNat]
  omega

theorem tests_holdsWire {s : State} {m : List Byte} (h : m.length ≤ 260) : (withWire s m).HoldsWire m := by
  refine ⟨?_, memory_holds_writeAll _ _⟩
  simp only [withWire, BitVec.toNat_ofNat]
  omega

/-! ## Single steps, with the numbers of `spec/95_test_vectors.md` -/

/-! Sections 1 and 2: the checksum. -/

theorem test_crc_bit : crcBit 0x8000 false = 0x1021 ∧ crcBit 0x8000 true = 0x0000 ∧ crcBit 0x7FFF true = 0xEFDF := by
  decide
theorem test_crc_step : crcStep 0x1234 0x56 = 0x3C40 ∧ crcStep 0xFFFF 0x00 = 0xE1F0 := by decide +kernel
theorem test_crc16_check : crc16 [0x31, 0x32, 0x33, 0x34, 0x35, 0x36, 0x37, 0x38, 0x39] = 0x31C3 := by decide +kernel
theorem test_crc16_example : crc16 (exampleFrame.take 18) = 0x8841 ∧ crc16 exampleFrame = 0xE4A9 := by decide +kernel
theorem test_crcinit :
    after (exec .crcinit { State.reset with crc := 0x31C3 }) (·.crc) = some 0x0000 := by decide
theorem test_crcbyte :
    after (exec (.crcbyte 0x32) { State.reset with crc := 0x2672 }) (·.crc) = some 0x20B5 := by decide +kernel
theorem test_rdcrc : answerOf (exec .rdcrc { State.reset with crc := 0x31C3 }) = some ⟨.ok, 0x31C3⟩ := by decide

/-! Sections 3 and 4: fields, flags and payload. -/

theorem test_setver : after (exec (.setver 0x03) State.reset) (·.ver) = some 3 := by decide
theorem test_setver_refused :
    after (exec (.setver 0x04) State.reset) (fun t => (t.ver, t.ecode, t.resp)) =
      some (0, 10, some ⟨.badOperand, 0x0000⟩) := by decide
theorem test_setflg : after (exec (.setflg 0x3F) State.reset) (·.flg) = some 0x3F := by decide
theorem test_setflg_refused :
    after (exec (.setflg 0x40) { State.reset with flg := 0x11 }) (fun t => (t.flg, t.ecode)) = some (0x11, 10) := by
  decide
theorem test_setid : after (exec (.setid 0xFF) State.reset) (·.txid) = some 0xFF := by decide
theorem test_setb0 : after (exec (.setb0 0xC1) State.reset) (fun t => (t.ver, t.flg)) = some (3, 0x01) := by decide
theorem test_plclr :
    after (exec .plclr (withPayload State.reset [1, 2, 3])) (·.len) = some 0 := by decide
theorem test_plpush :
    after (exec (.plpush 0x03) (withPayload State.reset [0x01, 0x02])) (fun t => (t.len, t.pl)) =
      some (3, [(0, 0x01), (1, 0x02), (2, 0x03)]) := by decide
theorem test_plpush_full :
    after (exec (.plpush 0x77) { State.reset with len := 255 }) (fun t => (t.len, t.ecode, t.resp)) =
      some (255, 11, some ⟨.bufferFull, 0x0000⟩) := by decide
theorem test_rdver : answerOf (exec .rdver { State.reset with ver := 2 }) = some ⟨.ok, 0x0002⟩ := by decide
theorem test_rdflg : answerOf (exec .rdflg { State.reset with flg := 0x1E }) = some ⟨.ok, 0x001E⟩ := by decide
theorem test_rdid : answerOf (exec .rdid { State.reset with txid := 0xFE }) = some ⟨.ok, 0x00FE⟩ := by decide
theorem test_rdlen : answerOf (exec .rdlen { State.reset with len := 255 }) = some ⟨.ok, 0x00FF⟩ := by decide
theorem test_rdcsum : answerOf (exec .rdcsum { State.reset with csum := 0x8841 }) = some ⟨.ok, 0x8841⟩ := by decide
theorem test_rdpl :
    answerOf (exec (.rdpl 0x01) (withPayload State.reset [0xAA, 0xBB])) = some ⟨.ok, 0x00BB⟩ := by decide
theorem test_rdpl_past_the_end :
    answerOf (exec (.rdpl 0x02) (withPayload State.reset [0xAA, 0xBB])) = some ⟨.badOperand, 0x0000⟩ := by decide
theorem test_rdclass : answerOf (exec .rdclass { State.reset with flg := 0x2F }) = some ⟨.ok, 0x00CF⟩ := by decide
theorem test_rdclass_chunk : answerOf (exec .rdclass { State.reset with flg := 0x1E }) = some ⟨.ok, 0x003E⟩ := by decide
theorem test_rdb0 : answerOf (exec .rdb0 { State.reset with ver := 2, flg := 0x15 }) = some ⟨.ok, 0x0095⟩ := by decide

/-! Section 9: the wire buffer and the system commands. -/

theorem test_bufclr : after (exec .bufclr { State.reset with cnt := 20 }) (·.cnt) = some 0 := by decide
theorem test_bufpush :
    after (exec (.bufpush 0x0F) (withWire State.reset [0x01, 0x01])) (fun t => (t.cnt, t.buf)) =
      some (3, [(0, 0x01), (1, 0x01), (2, 0x0F)]) := by decide
theorem test_bufpush_full :
    after (exec (.bufpush 0xEE) { State.reset with cnt := 260 }) (fun t => (t.cnt, t.ecode)) = some (260, 11) := by
  decide
theorem test_rdcnt : answerOf (exec .rdcnt { State.reset with cnt := 260 }) = some ⟨.ok, 0x0104⟩ := by decide
theorem test_rdbuf : answerOf (exec (.rdbuf 0x13) (withWire State.reset exampleFrame)) = some ⟨.ok, 0x0088⟩ := by
  decide +kernel
theorem test_rdbuf_past_the_end :
    answerOf (exec (.rdbuf 0x14) (withWire State.reset exampleFrame)) = some ⟨.badOperand, 0x0000⟩ := by
  decide +kernel
theorem test_rdbufh :
    answerOf (exec (.rdbufh 0x00) { State.reset with cnt := 257, buf := [(0, 0x01), (256, 0x07)] }) =
      some ⟨.ok, 0x0007⟩ := by decide
theorem test_rdbufh_outside :
    answerOf (exec (.rdbufh 0x04) { State.reset with cnt := 260, buf := [(259, 0x15)] }) =
      some ⟨.badOperand, 0x0000⟩ := by decide
theorem test_nop : after (exec .nop { State.reset with ecode := 5 }) (·.ecode) = some 5 := by decide
theorem test_rdstat : answerOf (exec .rdstat { State.reset with ecode := 5 }) = some ⟨.ok, 0x0005⟩ := by decide
theorem test_clrerr : after (exec .clrerr { State.reset with ecode := 5 }) (·.ecode) = some 0 := by decide
theorem test_reset :
    after (exec .reset { State.reset with crc := 0x31C3, ver := 1, flg := 0x1F, txid := 0x2A, len := 3, csum := 0x8841,
                                          cnt := 8, ecode := 5 })
      (fun t => { t with resp := none }) = some State.reset := by decide
theorem test_illegal_word :
    after (step { State.reset with pending := [.command 0x4101] }) (fun t => (t.ecode, t.resp, t.pending)) =
      some (9, some ⟨.illegalCommand, 0x0000⟩, []) := by decide
theorem test_ecode_keeps_the_first :
    after (exec (.setver 0x04) { State.reset with ecode := 2 }) (·.ecode) = some 2 := by decide

/-! Sections 5 to 7: the codec. -/

theorem test_encode :
    after (exec .encode { (withPayload State.reset [0xFF]) with flg := 0x05, txid := 0xFF })
      (fun t => (t.buf.map (·.2), t.cnt, t.csum)) = some (shortFrame, 6, 0x5EE7) := by decide +kernel
theorem test_encode_other_version :
    after (exec .encode { State.reset with ver := 1, flg := 0x01 }) (fun t => t.buf.map (·.2)) =
      some [0x41, 0x00, 0x00, 0x9D, 0x2A] := by decide +kernel
theorem test_decode_example :
    after (exec .decode (withWire State.reset exampleFrame)) (fun t => (t.flg, t.txid, t.len, t.csum)) =
      some (0x01, 0x01, 15, 0x8841) := by decide +kernel
theorem test_decode_order_of_checks :
    answerOf (exec .decode (withWire State.reset [0x41, 0x00, 0x00, 0x00])) = some ⟨.truncated, 0x0000⟩ ∧
    answerOf (exec .decode (withWire State.reset [0x40, 0x00, 0x00, 0xAD, 0x1D])) = some ⟨.unsupportedVersion, 0x0000⟩ ∧
    answerOf (exec .decode (withWire State.reset [0x00, 0x00, 0x09, 0x00, 0x00])) = some ⟨.invalidFlags, 0x0000⟩ ∧
    answerOf (exec .decode (withWire State.reset [0x01, 0x00, 0x01, 0xAA, 0x00])) = some ⟨.truncated, 0x0000⟩ ∧
    answerOf (exec .decode (withWire State.reset [0x01, 0x00, 0x00, 0x00, 0x00])) = some ⟨.checksumMismatch, 0x0000⟩ := by
  decide +kernel
theorem test_tag :
    after (exec (.tag 0x2A) (withWire State.reset [0x1F, 0x00, 0x00, 0x52, 0x6F])) (fun t => (t.buf.map (·.2), t.txid)) =
      some ([0x1F, 0x2A, 0x00, 0x7F, 0x86], 0x00) := by decide +kernel
theorem test_tag_finds_the_trailer_from_the_end :
    after (exec (.tag 0x03) (withWire State.reset [0x01, 0x00, 0x00, 0xAA, 0xBB, 0x00, 0x00]))
      (fun t => t.buf.map (·.2)) = some [0x01, 0x03, 0x00, 0xAA, 0xBB, 0x88, 0xD5] := by decide +kernel

/-! The three forms of rule R104, and the stream of `withFetchWord`. -/

theorem test_crc_forms :
    crcStepXorFirst 0x3100 0xC3 = 0xCF5D ∧ crcStepTable 0x3100 0xC3 = 0xCF5D ∧ crcStepNetwork 0x3100 0xC3 = 0xCF5D := by
  decide +kernel
theorem test_withFetchWord :
    after (step (State.reset.withFetchWord 16 0x2103)) (fun t => (t.flg, t.pending)) = some (0x03, []) := by decide
theorem test_memory_wf : State.reset.pl.wf = true ∧ State.reset.buf.wf = true := by decide

/-! ## Witnesses: for every statement with hypotheses, a state and operands that meet them -/

theorem tests_answered {r : Result} {a : Response} (h : answerOf r = some a) : ∃ t, r = .next t ∧ t.resp = some a := by
  cases r with
  | next t => exact ⟨t, rfl, h⟩
  | fault e => cases h
  | refused e => cases h

/-- A payload of 255 bytes, the largest. -/
def Tests.fullPayload : List Byte :=
  List.replicate 255 0x5A

/-- A buffer of 260 bytes, the largest. -/
def Tests.fullWire : List Byte :=
  List.replicate 260 0x05

theorem tests_fullPayload_length : fullPayload.length = 255 := List.length_replicate
theorem tests_fullWire_length : fullWire.length = 260 := List.length_replicate

/-! Encoding. -/

theorem test_meets_DecodeOfEncodeIsTheCommand :
    (Instr.tag 0xFF).wf = true ∧ (Instr.tag 0x00).wf = true ∧ Instr.nop.wf = true := by decide
theorem test_meets_EncodeOfDecodeIsTheWord :
    decode 0x42FF = .ok (.tag 0xFF) ∧ decode 0x0000 = .ok .nop := by decide
theorem test_meets_IllegalWordChangesOnlyEcode :
    ({ State.reset with pending := [.command 0xFFFF, .resetInput] } : State).pending =
      .command 0xFFFF :: [.resetInput] ∧ ∀ i, decode 0xFFFF ≠ .ok i :=
  ⟨rfl, fun i => by rw [test_decode_refusals.1]; intro h; cases h⟩
/-- Both formats, and every bound on an operand from both sides. -/
theorem test_meets_AssembledWordOfALine :
    Mnemonic.tag.format = .i ∧ Mnemonic.crcbyte.format = .i ∧ Mnemonic.decode.format = .n ∧
    (255 < 256 ∧ 256 ≤ 256) ∧ (0x20 ≤ ' '.toNat ∧ ' '.toNat ≤ 0x7E) ∧ (0x20 ≤ '~'.toNat ∧ '~'.toNat ≤ 0x7E) ∧
    0x1F < 0x20 ∧ 0x7E < 0x7F ∧ ([] : List AsmOperand).length ≠ 1 ∧ [AsmOperand.dec 0, .dec 0].length ≠ 1 ∧
    [AsmOperand.dec 0] ≠ [] := by
  decide

/-! The step. -/

theorem test_meets_StepRunsTheDecodedCommand :
    ({ State.reset with pending := [.command 0x42FF] } : State).pending = .command 0x42FF :: [] ∧
    decode 0x42FF = .ok (.tag 0xFF) ∧ (Instr.tag 0xFF).wf = true := by decide
theorem test_meets_IdleStepChangesNothing : State.reset.pending = [] := rfl
theorem test_meets_ResetInputHasTheEffectOfReset :
    ({ State.reset with cnt := 8, ecode := 5, pending := [.resetInput, .command 0x0000] } : State).pending =
      .resetInput :: [.command 0x0000] := rfl

/-- The operand field of an ill-formed `RESET`, `NOP`, `CLRERR`, `RDSTAT`, at both ends of its range. -/
theorem test_meets_ResetCommandLeavesTheResetValues : (0x01 : Byte) ≠ 0x00 ∧ (0xFF : Byte) ≠ 0x00 := by decide
theorem test_meets_NopClrerrRdstatResults : (0x01 : Byte) ≠ 0x00 ∧ (0xFF : Byte) ≠ 0x00 := by decide

/-! The CRC. -/

theorem test_meets_CrcBitIsAShiftWithThreeTaps : 0 < 16 ∧ 5 < 16 ∧ 12 < 16 ∧ 15 < 16 := by decide
theorem test_meets_CrcIsLinear : ([0x61, 0x62, 0x63] : List Byte).length = ([0x78, 0x79, 0x7A] : List Byte).length := rfl
theorem test_meets_CrcSeesEveryFlippedBit : 0 < exampleFrame.length ∧ 19 < exampleFrame.length ∧ 0 < 8 ∧ 7 < 8 := by
  decide

/-! Fields, payload and wire buffer: each clause at the boundary of its range. -/

theorem test_meets_SetverSetflgResults :
    (0x03 : Byte).toNat < 4 ∧ 4 ≤ (0x04 : Byte).toNat ∧ (0x3F : Byte).toNat < 64 ∧ 64 ≤ (0x40 : Byte).toNat := by
  decide
theorem test_meets_PlpushResult :
    State.reset.len.toNat < 255 ∧ ({ State.reset with len := 254 } : State).len.toNat < 255 ∧
    ({ State.reset with len := 255 } : State).len.toNat = 255 := by decide
theorem test_meets_RdplResult :
    (0x00 : Byte).toNat < (withPayload State.reset [0xAA, 0xBB]).len.toNat ∧
    (withPayload State.reset [0xAA, 0xBB]).pl.read 0 = some 0xAA ∧
    (0x01 : Byte).toNat < (withPayload State.reset [0xAA, 0xBB]).len.toNat ∧
    (withPayload State.reset [0xAA, 0xBB]).pl.read 1 = some 0xBB ∧
    (withPayload State.reset [0xAA, 0xBB]).len.toNat ≤ (0x02 : Byte).toNat ∧
    State.reset.len.toNat ≤ (0x00 : Byte).toNat := by decide
theorem test_meets_BufpushResult :
    State.reset.cnt.toNat < 260 ∧ ({ State.reset with cnt := 259 } : State).cnt.toNat < 260 ∧
    ({ State.reset with cnt := 260 } : State).cnt.toNat = 260 := by decide

/-- A full buffer, by its cells at the boundaries of the two index ranges. -/
def Tests.fullBuffer : State :=
  { State.reset with cnt := 260, buf := [(0, 0x05), (255, 0x5A), (256, 0x5A), (259, 0x15)] }

theorem test_meets_RdbufRdbufhResults :
    (0xFF : Byte).toNat < fullBuffer.cnt.toNat ∧ fullBuffer.buf.read 255 = some 0x5A ∧
    State.reset.cnt.toNat ≤ (0x00 : Byte).toNat ∧
    (0x03 : Byte).toNat ≤ 3 ∧ 256 + (0x03 : Byte).toNat < fullBuffer.cnt.toNat ∧
    fullBuffer.buf.read (256 + (0x03 : Byte).toNat) = some 0x15 ∧
    3 < (0x04 : Byte).toNat ∧
    ({ State.reset with cnt := 256 } : State).cnt.toNat ≤ 256 + (0x00 : Byte).toNat := by decide

/-! The codec. -/

theorem test_meets_EncodeResult :
    State.reset.HoldsPayload [] ∧ (withPayload State.reset fullPayload).HoldsPayload fullPayload :=
  ⟨⟨rfl, fun _ h => absurd h (by simp)⟩, tests_holdsPayload tests_fullPayload_length.le⟩

/-- The wire image of a frame with a payload of at most 255 bytes, loaded. -/
theorem tests_holdsImage (f : Flags) (id : Byte) (p : List Byte) (h : p.length ≤ 255) :
    (withWire State.reset (wireImage (wireBody Config.supportedVersion f id p))).HoldsWire
      (wireImage (wireBody Config.supportedVersion f id p)) :=
  tests_holdsWire (by simp [wireImage, wireBody]; omega)

theorem test_meets_DecodeOfAFrameSucceeds :
    (flagsOk 0x05 = true ∧ fullPayload.length ≤ 255 ∧
      (withWire State.reset (wireImage (wireBody Config.supportedVersion 0x05 0x00 fullPayload) ++ [])).HoldsWire
        (wireImage (wireBody Config.supportedVersion 0x05 0x00 fullPayload) ++ [])) ∧
    (flagsOk 0x1F = true ∧ ([] : List Byte).length ≤ 255 ∧
      (withWire State.reset (wireImage (wireBody Config.supportedVersion 0x1F 0x2A []) ++ [0xDE, 0xAD])).HoldsWire
        (wireImage (wireBody Config.supportedVersion 0x1F 0x2A []) ++ [0xDE, 0xAD])) :=
  ⟨⟨by decide, tests_fullPayload_length.le, tests_holdsWire (by simp [wireImage, wireBody, tests_fullPayload_length])⟩,
    by decide, by simp, tests_holdsWire (by simp [wireImage, wireBody])⟩

/-- A buffer for either answer of `readFrame`: the example frame, and one of each failure. -/
theorem test_meets_DecodeRefinesReadFrame :
    (State.reset.HoldsWire [] ∧ readFrame [] = .error .truncated) ∧
    ((withWire State.reset shortFrame).HoldsWire shortFrame ∧
      ∃ f, readFrame shortFrame = .ok f ∧ f.payload = [0xFF]) :=
  ⟨⟨⟨rfl, fun _ h => absurd h (by simp)⟩, rfl⟩, tests_holdsWire (by decide),
    ⟨⟨0, 0x05, 0xFF, [0xFF], 0x5EE7⟩, by decide +kernel, rfl⟩⟩

theorem test_meets_TagResult :
    ((withWire State.reset (shortFrame.take 4)).HoldsWire (shortFrame.take 4) ∧ (shortFrame.take 4).length < 5) ∧
    ((withWire State.reset [0x41, 0x00, 0x00, 0x9D, 0x2A]).HoldsWire [0x41, 0x00, 0x00, 0x9D, 0x2A] ∧
      ((([0x41, 0x00, 0x00, 0x9D, 0x2A] : List Byte).getD 0 0).toNat / 64 ≠ 0)) ∧
    ((withWire State.reset fullWire).HoldsWire fullWire ∧ fullWire.length ≤ 260 ∧ 5 ≤ fullWire.length ∧
      (fullWire.getD 0 0).toNat / 64 = 0) :=
  ⟨⟨tests_holdsWire (by decide), by decide⟩, ⟨tests_holdsWire (by decide), by decide⟩,
    tests_holdsWire tests_fullWire_length.le, tests_fullWire_length.le, by rw [tests_fullWire_length]; decide, by decide⟩

/-- The three cases of the first half of rule R163, and a decoded frame for the second. -/
theorem test_meets_EncodeDecodeRoundTrip :
    ((withPayload { State.reset with flg := 0x05 } fullPayload).HoldsPayload fullPayload ∧
      (withPayload { State.reset with flg := 0x05 } fullPayload).ver = Config.supportedVersion ∧
      flagsOk (withPayload { State.reset with flg := 0x05 } fullPayload).flg = true) ∧
    ({ State.reset with ver := 1 } : State).ver ≠ Config.supportedVersion ∧ flagsOk State.reset.flg = false ∧
    ∃ t, exec .decode (withWire State.reset shortFrame) = .next t ∧ t.resp = some ⟨.ok, 0x0000⟩ :=
  ⟨⟨tests_holdsPayload tests_fullPayload_length.le, rfl, by simp only [withPayload]; decide⟩, by decide, by decide,
    tests_answered (by decide +kernel)⟩

theorem test_meets_TaggingCommutesWithEncoding :
    ((withPayload { State.reset with flg := 0x05 } fullPayload).ver = Config.supportedVersion ∧
      (withPayload { State.reset with flg := 0x05 } fullPayload).HoldsPayload fullPayload ∧
      flagsOk (withPayload { State.reset with flg := 0x05 } fullPayload).flg = true) ∧
    ((withWire State.reset (0x05 :: 0xFF :: 0x01 :: [0xFF, 0x00, 0x00])).HoldsWire
        (0x05 :: 0xFF :: 0x01 :: [0xFF, 0x00, 0x00]) ∧
      ([0xFF, 0x00, 0x00] : List Byte).length = (0x01 : Byte).toNat + 2 ∧ (0x05 : Byte).toNat / 64 = 0 ∧
      flagsOk (BitVec.ofNat 6 ((0x05 : Byte).toNat % 64)) = true) :=
  ⟨⟨rfl, tests_holdsPayload tests_fullPayload_length.le, by simp only [withPayload]; decide⟩,
    tests_holdsWire (by decide), by decide, by decide, by decide⟩

/-- A flipped frame loaded: what every clause of the statement asks of the state. -/
theorem tests_holdsFlipped (f : Flags) (id : Byte) (p : List Byte) (j k : Nat) (h : p.length ≤ 255) :
    (withWire State.reset (flipBit (wireImage (wireBody Config.supportedVersion f id p)) j k)).HoldsWire
      (flipBit (wireImage (wireBody Config.supportedVersion f id p)) j k) :=
  tests_holdsWire (by simp [flipBit, wireImage, wireBody]; omega)

/-- One frame and, for each clause, a bit at the boundary of its range: the id, the first and the last byte behind the
header, both version bits, a flags bit that makes the flags invalid and one that does not, and a length bit of
each kind. -/
theorem test_meets_OneFlippedBitIsRefused :
    flagsOk 0x05 = true ∧ ([0xFF] : List Byte).length ≤ 255 ∧
    (∀ j k : Nat, (withWire State.reset (flipBit (wireImage (wireBody Config.supportedVersion 0x05 0xFF [0xFF])) j k)).HoldsWire
      (flipBit (wireImage (wireBody Config.supportedVersion 0x05 0xFF [0xFF])) j k)) ∧
    (3 ≤ 3 ∧ 3 < 5 + ([0xFF] : List Byte).length) ∧ (3 ≤ 5 ∧ 5 < 5 + ([0xFF] : List Byte).length) ∧
    flagsOk (0x05 ^^^ (1#6 <<< 5)) = false ∧ flagsOk (0x05 ^^^ (1#6 <<< 0)) = true ∧
    ([0xFF] : List Byte).length.testBit 7 = false ∧ ([0xFF] : List Byte).length.testBit 0 = true :=
  ⟨by decide, by decide, fun j k => tests_holdsFlipped _ _ _ j k (by decide), by decide, by decide, by decide, by decide,
    by decide, by decide⟩

theorem test_meets_ChecksumRegisterIsFreshAfterCodec :
    (∃ t, exec .encode (withPayload State.reset [0xFF]) = .next t ∧ t.resp = some ⟨.ok, 0x0000⟩) ∧
    ∃ t, exec .decode (withWire State.reset shortFrame) = .next t ∧ t.resp = some ⟨.ok, 0x0000⟩ :=
  ⟨tests_answered (by decide +kernel), tests_answered (by decide +kernel)⟩

/-! Failures. -/

/-- A word that fails and words that succeed, the two that write `ECODE` among them. -/
theorem test_meets_FailureEntry :
    (∃ t, stepCommand 0x5000 State.reset = .next t ∧ t.resp = some ⟨.illegalCommand, 0x0000⟩) ∧
    (∃ t, stepCommand 0x0000 State.reset = .next t ∧ t.resp = some ⟨.ok, 0x0000⟩) ∧
    ∃ t, stepCommand 0x0200 { State.reset with ecode := 5 } = .next t ∧ t.resp = some ⟨.ok, 0x0000⟩ :=
  ⟨tests_answered (by decide), tests_answered (by decide), tests_answered (by decide)⟩

theorem test_meets_EveryCommandIsAnswered :
    (∃ t, stepCommand 0x5000 State.reset = .next t ∧ t.resp = some ⟨.illegalCommand, 0x0000⟩) ∧
    (∃ t, stepCommand 0x22FF State.reset = .next t ∧ t.resp = some ⟨.ok, 0x0000⟩) ∧
    decode 0x22FF = .ok (.setid 0xFF) ∧
    (Instr.setid 0xFF).mnemonic ∉ ([.rdstat, .rdcrc, .rdver, .rdflg, .rdid, .rdlen, .rdcsum, .rdpl, .rdclass, .rdb0,
      .rdcnt, .rdbuf, .rdbufh] : List Mnemonic) :=
  ⟨tests_answered (by decide), tests_answered (by decide), by decide, by decide⟩

/-- A command that fails with each of the codes named. -/
theorem test_meets_FailuresByCommand :
    (∃ t, exec (.setver 0x04) State.reset = .next t ∧ t.resp = some ⟨.badOperand, 0x0000⟩) ∧
    (∃ t, exec (.bufpush 0x00) { State.reset with cnt := 260 } = .next t ∧ t.resp = some ⟨.bufferFull, 0x0000⟩) ∧
    (∃ t, exec (.tag 0x01) State.reset = .next t ∧ t.resp = some ⟨.truncated, 0x0000⟩) ∧
    (∃ t, exec .decode (withWire State.reset [0x41, 0x00, 0x00, 0x9D, 0x2A]) = .next t ∧
      t.resp = some ⟨.unsupportedVersion, 0x0000⟩) ∧
    (∃ t, exec .decode (withWire State.reset [0x00, 0x00, 0x00, 0x00, 0x00]) = .next t ∧
      t.resp = some ⟨.invalidFlags, 0x0000⟩) ∧
    ∃ t, exec .decode (withWire State.reset [0x01, 0x00, 0x00, 0x00, 0x00]) = .next t ∧
      t.resp = some ⟨.checksumMismatch, 0x0000⟩ :=
  ⟨tests_answered (by decide), tests_answered (by decide), tests_answered (by decide), tests_answered (by decide +kernel),
    tests_answered (by decide +kernel), tests_answered (by decide +kernel)⟩

theorem test_meets_EcodeNeverAltersACommand :
    Instr.setver 0x04 ≠ .rdstat ∧ Instr.setver 0x04 ≠ .clrerr ∧ Instr.setver 0x04 ≠ .reset ∧
    ({ State.reset with ecode := 2 } : State).ecode ≠ 0 ∧
    ∃ t, exec (.setver 0x04) { State.reset with ecode := 2 } = .next t ∧ t.resp = some ⟨.badOperand, 0x0000⟩ :=
  ⟨by decide, by decide, by decide, by decide, tests_answered (by decide)⟩

/-! The machine as a whole. -/

theorem test_meets_CommandsWriteOnlyTheirOwnState :
    ∃ t, exec .decode (withWire State.reset shortFrame) = .next t ∧ t.resp = some ⟨.ok, 0x0000⟩ :=
  tests_answered (by decide +kernel)

theorem test_meets_CommandsAreIdempotent :
    Mnemonic.tag ∉ ([.crcbyte, .plpush, .bufpush] : List Mnemonic) ∧
    (∃ t, exec (.tag 0x2A) (withWire State.reset shortFrame) = .next t ∧ t.resp = some ⟨.ok, 0x0000⟩) ∧
    ∃ t, exec (.rdbuf 0x05) (withWire State.reset shortFrame) = .next t ∧ t.resp = some ⟨.ok, 0x005E⟩ :=
  ⟨by decide, tests_answered (by decide +kernel), tests_answered (by decide)⟩

/-- A state with a frame in each store and the next command presented, the invariant and its step. -/
def Tests.busy : State :=
  { withWire (withPayload State.reset [0xAA, 0xBB]) shortFrame with ecode := 11, pending := [.command 0x4100] }

theorem test_meets_StepKeepsTheInvariant :
    busy.Inv ∧ ∃ t, step busy = .next t ∧ t.resp = some ⟨.ok, 0x0000⟩ :=
  ⟨by decide +kernel, tests_answered (by decide +kernel)⟩
theorem test_meets_StepNeverStops : busy.Inv ∧ State.reset.Inv := by decide +kernel

/-- Two states that differ in bytes above both fill levels and agree otherwise. -/
theorem test_meets_StaleBytesAreUnobservable :
    busy.SameVisible { busy with pl := busy.pl ++ [(2, 0x77)], buf := busy.buf ++ [(259, 0x77)] } ∧
    busy ≠ { busy with pl := busy.pl ++ [(2, 0x77)], buf := busy.buf ++ [(259, 0x77)] } ∧
    ∃ t, step busy = .next t ∧ t.resp = some ⟨.ok, 0x0000⟩ :=
  ⟨⟨rfl, rfl, rfl, rfl, rfl, rfl, rfl, rfl, rfl, rfl, by decide +kernel, by decide +kernel⟩, by decide +kernel,
    tests_answered (by decide +kernel)⟩

/-- A second instance with a command of its own presented. -/
def Tests.other : State :=
  { State.reset with pending := [.command 0x2103] }

theorem test_meets_InstancesAreIndependent :
    (0 ≠ 1 ∧ [other, busy][0]? = some other ∧ [other, busy][1]? = some busy) ∧
    (∃ t, step other = .next t ∧ t.resp = some ⟨.ok, 0x0000⟩) ∧
    (∃ t, step busy = .next t ∧ t.resp = some ⟨.ok, 0x0000⟩) ∧ ∀ s ∈ [other, busy], s.Inv :=
  ⟨⟨by decide, rfl, rfl⟩, tests_answered (by decide), tests_answered (by decide +kernel), by decide +kernel⟩

theorem test_meets_LoadsFillTheStores : fullPayload.length ≤ 255 ∧ fullWire.length ≤ 260 :=
  ⟨tests_fullPayload_length.le, tests_fullWire_length.le⟩
/-- Either answer of `readFrame`, the longest sequence that fits, and one byte more. -/
theorem test_meets_LoadAndDecodeIsTheSourceDecode :
    fullWire.length = 260 ∧ 260 < (0x05 :: fullWire).length ∧ readFrame ([].take 260) = .error .truncated ∧
    readFrame (shortFrame.take 260) = .ok ⟨0, 0x05, 0xFF, [0xFF], 0x5EE7⟩ :=
  ⟨tests_fullWire_length, by rw [List.length_cons, tests_fullWire_length]; decide, rfl, by decide +kernel⟩
theorem test_meets_SourceEncodeSequenceEmitsTheFrame : fullPayload.length ≤ 255 ∧ ([] : List Byte).length ≤ 255 :=
  ⟨tests_fullPayload_length.le, by decide⟩
end

section
/-! PROOFS. The step on a command word (rules R12, R57): once, what `step` and `stepCommand` do in the case that takes
the word and in the case in which the word decodes. -/

namespace Sys2Proof.Machine

/-- With a command word presented, the step takes the word from the host's stream and answers it. -/
theorem step_of_pending_command {s : State} {w : Word} {rest : List HostEvent} (h : s.pending = .command w :: rest) :
    step s = stepCommand w { s with pending := rest } := by
  simp only [step, h]

/-- A word that decodes is executed: the decoder's answer alone chooses the command. -/
theorem stepCommand_of_decode_eq_ok {w : Word} {i : Instr} (h : decode w = .ok i) (s : State) :
    stepCommand w s = exec i s := by
  simp only [stepCommand, h]

/-- Settles O7: the step takes the word, and the word taken is executed. The well-formedness of `i` is not needed, since
`stepCommand` runs whatever the decoder answers. -/
theorem stepRunsTheDecodedCommand : Obligations.StepRunsTheDecodedCommand := by
  intro s w i rest hpending hdecode _
  calc step s
      _ = stepCommand w { s with pending := rest } := step_of_pending_command hpending
      _ = exec i { s with pending := rest } := stepCommand_of_decode_eq_ok hdecode _

end Sys2Proof.Machine
end

section
/-! PROOFS. The state right after reset (rules R36, R231). -/

namespace Sys2Proof.Machine

/-- Settles O10: `State.reset` lists the stated values; that flags value 0 has no type is read off it. -/
theorem resetStateHoldsTheStatedValues : Obligations.ResetStateHoldsTheStatedValues := by
  have hflags : flagsOk State.reset.flg = false := by decide
  exact ⟨rfl, rfl, rfl, rfl, rfl, rfl, rfl, rfl, hflags⟩

/-- Settles O12: `RESET` leaves both stores empty, and an empty store has a byte at no index. -/
theorem resetLeavesTheStoresUnspecified : Obligations.ResetLeavesTheStoresUnspecified := fun s =>
  ⟨respond .ok 0x0000 (resetBlock s), rfl, fun i => ⟨memory_read_nil i, memory_read_nil i⟩⟩

/-- A store is filled up to level 0, whatever it holds. -/
theorem memory_filled_zero (m : Memory) : m.filled 0 := fun _ hi => absurd hi (Nat.not_lt_zero _)

/-- An empty store lists no index outside any range. -/
theorem memory_within_nil (size : Nat) : Memory.within [] size := fun _ hc => absurd hc List.not_mem_nil

/-- Settles O49: both fill levels are 0 and both stores empty, so all that is left is that 0 is a code. -/
theorem resetStateMeetsTheInvariant : Obligations.ResetStateMeetsTheInvariant :=
  have hcnt : State.reset.cnt.toNat ≤ 260 := Nat.zero_le _
  have hecode : State.reset.ecode.toNat ∈ [0, 2, 3, 4, 5, 9, 10, 11] := List.mem_cons_self
  ⟨hcnt, memory_filled_zero _, memory_filled_zero _, memory_wf_nil, memory_wf_nil, memory_within_nil _,
    memory_within_nil _, hecode⟩

end Sys2Proof.Machine
end

section
/-! PROOFS. What each command may write (rules R21 to R29, R37): every command is taken apart once by the law of the
operation that ends it, and the state it answers is compared with the state before. -/

namespace Sys2Proof.Machine

/-- Command `i` has changed nothing between `s` and `t` but what rules R21 to R29 and R37 name it as writing. -/
def WritesOnlyItsOwn (i : Instr) (s t : State) : Prop :=
  (t.crc = s.crc ∨ i.mnemonic ∈ [.reset, .crcinit, .crcbyte]) ∧
  (t.ver = s.ver ∨ i.mnemonic ∈ [.reset, .setver, .setb0, .decode]) ∧
  (t.flg = s.flg ∨ i.mnemonic ∈ [.reset, .setflg, .setb0, .decode]) ∧
  (t.txid = s.txid ∨ i.mnemonic ∈ [.reset, .setid, .decode]) ∧
  (t.len = s.len ∨ i.mnemonic ∈ [.reset, .plclr, .plpush, .decode]) ∧
  (t.csum = s.csum ∨ i.mnemonic ∈ [.reset, .encode, .decode]) ∧
  (t.cnt = s.cnt ∨ i.mnemonic ∈ [.reset, .bufclr, .bufpush, .encode]) ∧
  (t.pl = s.pl ∨ i.mnemonic ∈ [.reset, .plpush, .decode]) ∧
  (t.buf = s.buf ∨ i.mnemonic ∈ [.reset, .bufpush, .encode, .tag]) ∧
  t.pending = s.pending

/-- Giving a response writes nothing of the block, so any command may do it. -/
theorem writesOnlyItsOwn_respond (i : Instr) (c : Code) (d : Word) (s : State) :
    WritesOnlyItsOwn i s (respond c d s) := by
  simp [WritesOnlyItsOwn]

/-- Failure entry writes `ECODE` alone, so any command may take it (rule R207). -/
theorem writesOnlyItsOwn_takeFailure (i : Instr) (c : Code) (s : State) :
    WritesOnlyItsOwn i s (takeFailure c s) := by
  simp [WritesOnlyItsOwn]

/-- A read of one byte behind a checked operand fails or answers, and does nothing else (rules R131, R153, R154). -/
theorem writesOnlyItsOwn_indexedRead {i : Instr} {idx : Option Nat} {st : Store} {s t : State}
    (h : orBadOperand idx s (fun k => orFault (readByte st k s) fun b => answer (zext16 b) s) = .next t) :
    WritesOnlyItsOwn i s t := by
  obtain ⟨-, rfl⟩ | ⟨k, -, h⟩ := orBadOperand_eq_next_iff.1 h
  · exact writesOnlyItsOwn_takeFailure ..
  · obtain ⟨b, -, h⟩ := orFault_eq_next_iff.1 h
    cases h
    exact writesOnlyItsOwn_respond ..

/-- What `PLPUSH` can do (rule R125). -/
theorem execPlpush_inv {k : Byte} {s t : State} (h : execPlpush k s = .next t) :
    t = takeFailure .bufferFull s ∨
      t = respond .ok 0 { s with pl := s.pl.write s.len.toNat k, len := s.len + 1 } := by
  unfold execPlpush at h
  split at h
  · cases h; exact .inl rfl
  · obtain ⟨u, hu, h⟩ := orFault_eq_next_iff.1 h
    obtain ⟨-, rfl⟩ := writeByte_eq_ok_iff.1 hu
    cases h; exact .inr rfl

/-- What `BUFPUSH` can do (rule R151). -/
theorem execBufpush_inv {k : Byte} {s t : State} (h : execBufpush k s = .next t) :
    t = takeFailure .bufferFull s ∨
      t = respond .ok 0 { s with buf := s.buf.write s.cnt.toNat k, cnt := s.cnt + 1 } := by
  unfold execBufpush at h
  split at h
  · cases h; exact .inl rfl
  · obtain ⟨u, hu, h⟩ := orFault_eq_next_iff.1 h
    obtain ⟨-, rfl⟩ := writeByte_eq_ok_iff.1 hu
    cases h; exact .inr rfl

/-- Every command that answers has written only its own state. -/
theorem exec_writesOnlyItsOwn {i : Instr} {s t : State} (h : exec i s = .next t) : WritesOnlyItsOwn i s t := by
  cases i with
  | nop | rdstat | rdcrc | rdver | rdflg | rdid | rdlen | rdcsum | rdclass | rdb0 | rdcnt =>
    cases h
    exact writesOnlyItsOwn_respond ..
  | rdpl | rdbuf | rdbufh => exact writesOnlyItsOwn_indexedRead h
  | reset | clrerr | crcinit | crcbyte | setid | setb0 | plclr | bufclr =>
    cases h
    simp [WritesOnlyItsOwn, Instr.mnemonic]
  | setver | setflg =>
    obtain ⟨-, rfl⟩ | ⟨v, -, h⟩ := orBadOperand_eq_next_iff.1 h
    · exact writesOnlyItsOwn_takeFailure ..
    · cases h
      simp [WritesOnlyItsOwn, Instr.mnemonic]
  | plpush =>
    obtain rfl | rfl := execPlpush_inv h
    · exact writesOnlyItsOwn_takeFailure ..
    · simp [WritesOnlyItsOwn, Instr.mnemonic]
  | bufpush =>
    obtain rfl | rfl := execBufpush_inv h
    · exact writesOnlyItsOwn_takeFailure ..
    · simp [WritesOnlyItsOwn, Instr.mnemonic]
  | encode =>
    obtain ⟨p, -, -, rfl⟩ := execEncode_inv h
    simp [WritesOnlyItsOwn, Instr.mnemonic]
  | decode =>
    obtain ⟨c, -, rfl⟩ | ⟨b0, id, l, p, -, -, -, -, -, rfl⟩ := execDecode_inv h
    · exact writesOnlyItsOwn_takeFailure ..
    · simp [WritesOnlyItsOwn, Instr.mnemonic, decoded]
  | tag =>
    obtain ⟨c, -, rfl⟩ | ⟨body, -, -, -, -, rfl⟩ := execTag_inv h
    · exact writesOnlyItsOwn_takeFailure ..
    · simp [WritesOnlyItsOwn, Instr.mnemonic]

/-- Settles O47: the statement is `exec_writesOnlyItsOwn` with the predicate written out. -/
theorem commandsWriteOnlyTheirOwnState : Obligations.CommandsWriteOnlyTheirOwnState :=
  fun _ _ _ h => exec_writesOnlyItsOwn h

end Sys2Proof.Machine
end

section
/-! PROOFS. `CSUM` right after a codec command (rules R26, R35): the machine's frame body is the one of the frame format
written out on lists of bytes. -/

namespace Sys2Proof.Machine

/-- The machine's checksummed bytes are the frame format's, for a payload of the length given (rules R71, R103). -/
theorem frameBody_eq_wireBody (v : Version) (f : Flags) (id : Byte) {l : Byte} {p : List Byte}
    (hl : p.length = l.toNat) : frameBody (packB0 v f) id l p = wireBody v f id p := by
  have hb0 : packB0 v f = BitVec.ofNat 8 (v.toNat * 64 + f.toNat) := by
    rw [← packB0_toNat, BitVec.ofNat_toNat, BitVec.setWidth_eq]
  have hlen : l = BitVec.ofNat 8 p.length := by
    rw [hl, BitVec.ofNat_toNat, BitVec.setWidth_eq]
  rw [frameBody, wireBody, ← hb0, ← hlen]

/-- A header byte is the packing of its version and its flags (rule R71). -/
theorem packB0_b0Version_b0Flags (b : Byte) : packB0 (b0Version b) (b0Flags b) = b := by
  apply BitVec.eq_of_toNat_eq
  rw [packB0_toNat, b0Version_toNat, b0Flags_toNat, Nat.div_add_mod']

/-- After `ENCODE`, `CSUM` is the checksum of the field registers and the payload. -/
theorem execEncode_csum_fresh {s t : State} (h : execEncode s = .next t) :
    ∃ p, t.HoldsPayload p ∧ t.csum = crc16 (wireBody t.ver t.flg t.txid p) := by
  obtain ⟨p, hlen, hholds, rfl⟩ := execEncode_inv h
  refine ⟨p, ⟨hlen, hholds⟩, ?_⟩
  simp only [respond_csum, respond_ver, respond_flg, respond_txid, frameBody_eq_wireBody _ _ _ hlen]

/-- After a `DECODE` answered `OK` likewise, and it has passed the checks of the version and the flags. -/
theorem execDecode_csum_fresh {s t : State} (h : execDecode s = .next t) (hok : t.resp = some ⟨.ok, 0x0000⟩) :
    ∃ p, t.HoldsPayload p ∧ t.csum = crc16 (wireBody t.ver t.flg t.txid p) ∧
      t.ver = Config.supportedVersion ∧ flagsOk t.flg = true := by
  obtain ⟨c, hc, rfl⟩ | ⟨b0, id, l, p, hlen, -, hver, hflg, -, rfl⟩ := execDecode_inv h
  · have hcode : c = .ok := congrArg Response.code (Option.some.inj hok)
    exact absurd hc (by simp [hcode])
  · have hbody : frameBody b0 id l p = wireBody (b0Version b0) (b0Flags b0) id p := by
      rw [← frameBody_eq_wireBody _ _ _ hlen, packB0_b0Version_b0Flags]
    refine ⟨p, ⟨hlen, memory_holds_writeAll _ _⟩, ?_, hver, hflg⟩
    simp only [decoded, respond_csum, respond_ver, respond_flg, respond_txid, hbody]

/-- Settles O41, from what `ENCODE` and `DECODE` can do. -/
theorem checksumRegisterIsFreshAfterCodec : Obligations.ChecksumRegisterIsFreshAfterCodec :=
  ⟨fun _ _ h => execEncode_csum_fresh h, fun _ _ h hok => execDecode_csum_fresh h hok⟩

end Sys2Proof.Machine
end

section
/-! PROOFS. Stale bytes are unobservable (rules R27, R28, R36), by simulation. `SimulatedBy r q` relates the outcomes of
two runs; there is one rule for each shared operation, and a command is simulated by following its definition with them.
What it turns on is that a command reads only below the fill levels, and that where it raises one it has written up to it. -/

namespace Sys2Proof.Machine

/-- Where the first outcome is a next state, so is the second, and a host sees the same of both. -/
def SimulatedBy (r q : Result) : Prop :=
  ∀ s', r = .next s' → ∃ t', q = .next t' ∧ s'.SameVisible t'

/-! ### Accesses to two stores -/

/-- A byte read answers the same in two states whose stores agree at its index. -/
theorem readByte_congr {st : Store} {i : Nat} {s t : State} (h : (storeOf st s).read i = (storeOf st t).read i) :
    readByte st i s = readByte st i t := by
  simp only [readByte, h]

/-- A read of a run answers the same in two states whose stores agree at its indices. -/
theorem readBytes_congr {st : Store} {i n : Nat} {s t : State}
    (h : ∀ j < i + n, (storeOf st s).read j = (storeOf st t).read j) : readBytes st i n s = readBytes st i n t := by
  induction n generalizing i with
  | zero => rfl
  | succ n ih =>
    have hhead : readByte st i s = readByte st i t := readByte_congr (h i (by omega))
    have htail : readBytes st (i + 1) n s = readBytes st (i + 1) n t := ih fun j hj => h j (by omega)
    simp only [readBytes, hhead, htail]

/-- After the same write two stores agree where they did, and at the index written. -/
theorem memory_read_write_congr {m m' : Memory} {i j : Nat} (b : Byte) (h : j ≠ i → m.read j = m'.read j) :
    (m.write i b).read j = (m'.write i b).read j := by
  rw [memory_read_write, memory_read_write]
  split
  · rfl
  · exact h ‹_›

/-- After the same run of writes two stores agree where they did, and inside the run. -/
theorem memory_read_writeAll_congr {m m' : Memory} {i j : Nat} (bs : List Byte)
    (h : ¬(i ≤ j ∧ j < i + bs.length) → m.read j = m'.read j) :
    (m.writeAll i bs).read j = (m'.writeAll i bs).read j := by
  rw [memory_read_writeAll, memory_read_writeAll]
  split
  · rfl
  · exact h ‹_›

/-- Whether a run of writes succeeds depends on its range alone: what succeeds in one state succeeds in any. -/
theorem writeBytes_eq_ok_of_eq_ok {st : Store} {i : Nat} {bs : List Byte} {s u : State} (t : State)
    (h : writeBytes st i bs s = .ok u) :
    writeBytes st i bs t = .ok (setStore st ((storeOf st t).writeAll i bs) t) := by
  obtain ⟨-, rfl | hrange⟩ := writeBytes_eq_ok_inv h
  · cases st <;> rfl
  · exact writeBytes_eq_ok bs t hrange

/-! ### States a host cannot tell apart -/

theorem sameVisible_refl (s : State) : s.SameVisible s :=
  ⟨rfl, rfl, rfl, rfl, rfl, rfl, rfl, rfl, rfl, rfl, fun _ _ => rfl, fun _ _ => rfl⟩

section
variable {s t : State} (h : s.SameVisible t)
include h

theorem sameVisible_respond (c : Code) (d : Word) : (respond c d s).SameVisible (respond c d t) :=
  { h with resp := rfl }

theorem sameVisible_takeFailure (c : Code) : (takeFailure c s).SameVisible (takeFailure c t) :=
  { h with ecode := by simp only [takeFailure_ecode, h.ecode], resp := rfl }

theorem sameVisible_resetBlock : (resetBlock s).SameVisible (resetBlock t) := by
  have heq : resetBlock s = resetBlock t := by simp only [resetBlock, h.pending]
  exact heq ▸ sameVisible_refl _

end

/-! ### One rule per shared operation -/

section
variable {s t : State}

theorem simulatedBy_next (h : s.SameVisible t) : SimulatedBy (.next s) (.next t) := by
  rintro _ ⟨⟩
  exact ⟨t, rfl, h⟩

theorem simulatedBy_done (h : s.SameVisible t) : SimulatedBy (done s) (done t) :=
  simulatedBy_next (sameVisible_respond h _ _)

theorem simulatedBy_answer {v w : Word} (hv : v = w) (h : s.SameVisible t) : SimulatedBy (answer v s) (answer w t) :=
  hv ▸ simulatedBy_next (sameVisible_respond h _ _)

theorem simulatedBy_fail (c : Code) (h : s.SameVisible t) : SimulatedBy (fail c s) (fail c t) :=
  simulatedBy_next (sameVisible_takeFailure h c)

theorem simulatedBy_ite {p : Prop} [Decidable p] {r r' q q' : Result} (hpos : p → SimulatedBy r q)
    (hneg : ¬p → SimulatedBy r' q') : SimulatedBy (if p then r else r') (if p then q else q') := by
  split
  · exact hpos ‹_›
  · exact hneg ‹_›

theorem simulatedBy_orBadOperand {α : Type} {r q : Option α} {k k' : α → Result} (hr : r = q) (h : s.SameVisible t)
    (hk : ∀ a, r = some a → SimulatedBy (k a) (k' a)) : SimulatedBy (orBadOperand r s k) (orBadOperand q t k') := by
  subst hr
  cases r with
  | none => exact simulatedBy_fail _ h
  | some a => exact hk a rfl

theorem simulatedBy_read {α : Type} {r q : Except Fault α} {k k' : α → Result} (hr : r = q)
    (hk : ∀ a, r = .ok a → SimulatedBy (k a) (k' a)) : SimulatedBy (orFault r k) (orFault q k') := by
  subst hr
  intro s' hs
  obtain ⟨a, ha, hs⟩ := orFault_eq_next_iff.1 hs
  obtain ⟨t', ht, hvis⟩ := hk a ha s' hs
  exact ⟨t', orFault_eq_next_iff.2 ⟨a, ha, ht⟩, hvis⟩

theorem simulatedBy_writeByte {st : Store} {i : Nat} {b : Byte} {k k' : State → Result}
    (hk : SimulatedBy (k (setStore st ((storeOf st s).write i b) s)) (k' (setStore st ((storeOf st t).write i b) t))) :
    SimulatedBy (orFault (writeByte st i b s) k) (orFault (writeByte st i b t) k') := by
  intro s' hs
  obtain ⟨u, hu, hs⟩ := orFault_eq_next_iff.1 hs
  obtain ⟨hi, rfl⟩ := writeByte_eq_ok_iff.1 hu
  rw [writeByte_eq_ok b t hi, orFault_ok]
  exact hk s' hs

theorem simulatedBy_writeBytes {st : Store} {i : Nat} {bs : List Byte} {k k' : State → Result}
    (hk : SimulatedBy (k (setStore st ((storeOf st s).writeAll i bs) s))
      (k' (setStore st ((storeOf st t).writeAll i bs) t))) :
    SimulatedBy (orFault (writeBytes st i bs s) k) (orFault (writeBytes st i bs t) k') := by
  intro s' hs
  obtain ⟨u, hu, hs⟩ := orFault_eq_next_iff.1 hs
  obtain ⟨rfl, -⟩ := writeBytes_eq_ok_inv hu
  rw [writeBytes_eq_ok_of_eq_ok t hu, orFault_ok]
  exact hk s' hs

end

/-! ### The commands that touch a store -/

/-- A register counted up by one is above its old number by at most one, also where it wraps around. -/
theorem toNat_succ_le {n : Nat} (x : BitVec n) : (x + 1#n).toNat ≤ x.toNat + 1 := by
  rw [BitVec.toNat_add, BitVec.toNat_ofNat]
  exact (Nat.mod_le _ _).trans (Nat.add_le_add_left (Nat.mod_le _ _) _)

section
variable {s t : State} (h : s.SameVisible t)
include h

/-- `PLPUSH` raises `LEN` by one and has written the byte below it. -/
theorem execPlpush_simulated (k : Byte) : SimulatedBy (execPlpush k s) (execPlpush k t) := by
  unfold execPlpush
  rw [← h.len]
  refine simulatedBy_ite (fun _ => simulatedBy_fail _ h) fun _ => ?_
  have hpl : ∀ j < (s.len + 1).toNat,
      (s.pl.write s.len.toNat k).read j = (t.pl.write s.len.toNat k).read j := fun j hj => by
    have hsucc : (s.len + 1).toNat ≤ s.len.toNat + 1 := toNat_succ_le s.len
    exact memory_read_write_congr k fun hne => h.pl j (by omega)
  exact simulatedBy_writeByte (simulatedBy_done { h with len := rfl, pl := hpl })

/-- `BUFPUSH` raises `CNT` by one and has written the byte below it. -/
theorem execBufpush_simulated (k : Byte) : SimulatedBy (execBufpush k s) (execBufpush k t) := by
  unfold execBufpush
  rw [← h.cnt]
  refine simulatedBy_ite (fun _ => simulatedBy_fail _ h) fun _ => ?_
  have hbuf : ∀ j < (s.cnt + 1).toNat,
      (s.buf.write s.cnt.toNat k).read j = (t.buf.write s.cnt.toNat k).read j := fun j hj => by
    have hsucc : (s.cnt + 1).toNat ≤ s.cnt.toNat + 1 := toNat_succ_le s.cnt
    exact memory_read_write_congr k fun hne => h.buf j (by omega)
  exact simulatedBy_writeByte (simulatedBy_done { h with cnt := rfl, buf := hbuf })

/-- `RDPL` reads below `LEN`. -/
theorem execRdpl_simulated (k : Byte) : SimulatedBy (execRdpl k s) (execRdpl k t) := by
  have hidx : payloadIndex k s = payloadIndex k t := by simp only [payloadIndex, h.len]
  refine simulatedBy_orBadOperand hidx h fun i hi => ?_
  obtain ⟨rfl, hlt⟩ := payloadIndex_eq_some_iff.1 hi
  exact simulatedBy_read (readByte_congr (h.pl _ hlt)) fun _ _ => simulatedBy_answer rfl h

/-- `RDBUF` reads below `CNT`. -/
theorem execRdbuf_simulated (k : Byte) : SimulatedBy (execRdbuf k s) (execRdbuf k t) := by
  have hidx : bufferIndex k s = bufferIndex k t := by simp only [bufferIndex, h.cnt]
  refine simulatedBy_orBadOperand hidx h fun i hi => ?_
  obtain ⟨rfl, hlt⟩ := bufferIndex_eq_some_iff.1 hi
  exact simulatedBy_read (readByte_congr (h.buf _ hlt)) fun _ _ => simulatedBy_answer rfl h

/-- `RDBUFH` reads below `CNT`. -/
theorem execRdbufh_simulated (k : Byte) : SimulatedBy (execRdbufh k s) (execRdbufh k t) := by
  have hidx : bufferIndexHigh k s = bufferIndexHigh k t := by simp only [bufferIndexHigh, h.cnt]
  refine simulatedBy_orBadOperand hidx h fun i hi => ?_
  obtain ⟨rfl, -, hlt⟩ := bufferIndexHigh_eq_some_iff.1 hi
  exact simulatedBy_read (readByte_congr (h.buf _ hlt)) fun _ _ => simulatedBy_answer rfl h

/-- `ENCODE` reads `PL` below `LEN`, and writes all of `BUF` below the `CNT` it sets. -/
theorem execEncode_simulated : SimulatedBy (execEncode s) (execEncode t) := by
  unfold execEncode
  rw [← h.ver, ← h.flg, ← h.txid, ← h.len]
  refine simulatedBy_read (readBytes_congr fun j hj => h.pl j (by omega)) fun p hp => ?_
  obtain ⟨hlen, -⟩ := readBytes_eq_ok_iff.1 hp
  refine simulatedBy_writeBytes (simulatedBy_done { h with cnt := rfl, csum := rfl, buf := fun j hj => ?_ })
  refine memory_read_writeAll_congr _ fun hout => absurd ?_ hout
  have hcnt : (BitVec.ofNat 9 (5 + s.len.toNat)).toNat ≤ 5 + s.len.toNat := by
    rw [BitVec.toNat_ofNat]; exact Nat.mod_le _ _
  have hj' : j < (BitVec.ofNat 9 (5 + s.len.toNat)).toNat := hj
  rw [body_append_trailer, wireImage_length, frameBody_length]
  omega

/-- Steps 5 to 8 of `DECODE` read `BUF` below `CNT`, and write all of `PL` below the `LEN` they set. -/
theorem decodeExtent_simulated (b0 id l : Byte) : SimulatedBy (decodeExtent b0 id l s) (decodeExtent b0 id l t) := by
  unfold decodeExtent
  rw [← h.cnt]
  refine simulatedBy_ite (fun _ => simulatedBy_fail _ h) fun hfits => ?_
  simp only [Config.minFrameBytes, Config.headerBytes] at hfits ⊢
  refine simulatedBy_read (readBytes_congr fun j hj => h.buf j (by omega)) fun body hbody => ?_
  refine simulatedBy_read (readByte_congr (h.buf _ (by omega))) fun low _ => ?_
  refine simulatedBy_read (readByte_congr (h.buf _ (by omega))) fun high _ => ?_
  refine simulatedBy_ite (fun _ => simulatedBy_fail _ h) fun _ => ?_
  obtain ⟨hlen, -⟩ := readBytes_eq_ok_iff.1 hbody
  refine simulatedBy_writeBytes (simulatedBy_done
    { h with ver := rfl, flg := rfl, txid := rfl, len := rfl, csum := rfl, pl := fun j hj => ?_ })
  have hj' : j < l.toNat := hj
  refine memory_read_writeAll_congr _ fun hout => absurd ?_ hout
  rw [List.length_drop]
  omega

/-- `DECODE` reads its header below `CNT`. -/
theorem execDecode_simulated : SimulatedBy (execDecode s) (execDecode t) := by
  unfold execDecode
  rw [← h.cnt]
  refine simulatedBy_ite (fun _ => simulatedBy_fail _ h) fun hmin => ?_
  simp only [Config.minFrameBytes] at hmin
  refine simulatedBy_read (readByte_congr (h.buf _ (by omega))) fun b0 _ => ?_
  refine simulatedBy_read (readByte_congr (h.buf _ (by omega))) fun id _ => ?_
  refine simulatedBy_read (readByte_congr (h.buf _ (by omega))) fun l _ => ?_
  refine simulatedBy_ite (fun _ => simulatedBy_fail _ h) fun _ => ?_
  exact simulatedBy_ite (fun _ => simulatedBy_fail _ h) fun _ => decodeExtent_simulated h b0 id l

/-- `TAG` reads `BUF` below `CNT` and writes the same bytes in both states. -/
theorem execTag_simulated (k : Byte) : SimulatedBy (execTag k s) (execTag k t) := by
  unfold execTag
  rw [← h.cnt]
  refine simulatedBy_ite (fun _ => simulatedBy_fail _ h) fun hmin => ?_
  simp only [Config.minFrameBytes] at hmin
  refine simulatedBy_read (readByte_congr (h.buf _ (by omega))) fun b0 _ => ?_
  refine simulatedBy_ite (fun _ => simulatedBy_fail _ h) fun _ => ?_
  have htagged : ∀ j < s.cnt.toNat, (s.buf.write 1 k).read j = (t.buf.write 1 k).read j :=
    fun j hj => memory_read_write_congr k fun _ => h.buf j hj
  refine simulatedBy_writeByte (simulatedBy_read (readBytes_congr fun j hj => htagged j (by omega)) fun body _ => ?_)
  exact simulatedBy_writeBytes (simulatedBy_done
    { h with buf := fun j hj => memory_read_writeAll_congr _ fun _ => htagged j hj })

/-! ### Every command, and the step -/

/-- Every command: those that touch no store compute from registers that agree. -/
theorem exec_simulated (i : Instr) : SimulatedBy (exec i s) (exec i t) := by
  cases i with
  | nop => exact simulatedBy_done h
  | reset => exact simulatedBy_done (sameVisible_resetBlock h)
  | clrerr => exact simulatedBy_done { h with ecode := rfl }
  | rdstat => exact simulatedBy_answer (congrArg (·.zeroExtend 16) h.ecode) h
  | crcinit => exact simulatedBy_done { h with crc := rfl }
  | crcbyte k => exact simulatedBy_done { h with crc := congrArg (crcStep · k) h.crc }
  | rdcrc => exact simulatedBy_answer h.crc h
  | setver k => exact simulatedBy_orBadOperand rfl h fun _ _ => simulatedBy_done { h with ver := rfl }
  | setflg k => exact simulatedBy_orBadOperand rfl h fun _ _ => simulatedBy_done { h with flg := rfl }
  | setid k => exact simulatedBy_done { h with txid := rfl }
  | plclr => exact simulatedBy_done { h with len := rfl, pl := fun _ hj => absurd hj (Nat.not_lt_zero _) }
  | plpush k => exact execPlpush_simulated h k
  | setb0 k => exact simulatedBy_done { h with ver := rfl, flg := rfl }
  | rdver => exact simulatedBy_answer (congrArg zext16 h.ver) h
  | rdflg => exact simulatedBy_answer (congrArg zext16 h.flg) h
  | rdid => exact simulatedBy_answer (congrArg zext16 h.txid) h
  | rdlen => exact simulatedBy_answer (congrArg zext16 h.len) h
  | rdcsum => exact simulatedBy_answer h.csum h
  | rdpl k => exact execRdpl_simulated h k
  | rdclass => exact simulatedBy_answer (congrArg (zext16 <| fclass ·) h.flg) h
  | rdb0 => exact simulatedBy_answer (congrArg zext16 (congrArg₂ packB0 h.ver h.flg)) h
  | bufclr => exact simulatedBy_done { h with cnt := rfl, buf := fun _ hj => absurd hj (Nat.not_lt_zero _) }
  | bufpush k => exact execBufpush_simulated h k
  | rdcnt => exact simulatedBy_answer (congrArg zext16 h.cnt) h
  | rdbuf k => exact execRdbuf_simulated h k
  | rdbufh k => exact execRdbufh_simulated h k
  | encode => exact execEncode_simulated h
  | decode => exact execDecode_simulated h
  | tag k => exact execTag_simulated h k

/-- A command word decodes alike in both states, to a command or to none. -/
theorem stepCommand_simulated (w : Word) : SimulatedBy (stepCommand w s) (stepCommand w t) := by
  unfold stepCommand
  split
  · exact exec_simulated h _
  · exact simulatedBy_fail _ h

/-- A step of either state takes the same event of the host. -/
theorem step_simulated : SimulatedBy (step s) (step t) := by
  have htaken (rest : List HostEvent) : State.SameVisible { s with pending := rest } { t with pending := rest } :=
    { h with pending := rfl }
  unfold step
  rw [← h.pending]
  split
  · exact simulatedBy_next h
  · exact stepCommand_simulated (htaken _) _
  · exact simulatedBy_next (sameVisible_resetBlock (htaken _))

end

/-- Settles O52: the step of the second state simulates the step of the first. -/
theorem staleBytesAreUnobservable : Obligations.StaleBytesAreUnobservable :=
  fun _ _ s' h hs => step_simulated h s' hs

end Sys2Proof.Machine
end

section
/-! PROOFS. Every step keeps the invariant of rule R34, and is answered. `AnswersSound r` says both of an outcome, so
that each definition is followed once: there is one rule for each shared operation, and a command is settled by
following its definition with them. The invariant is regrouped by store, because what a command reads and writes is one
store up to one fill level. -/

namespace Sys2Proof.Machine

/-! ### One store -/

/-- What rule R34 asks of one store of `size` bytes, of which the first `level` are valid. -/
structure Memory.Sound (m : Memory) (size level : Nat) : Prop where
  level_le : level ≤ size
  filled : m.filled level
  wf : m.wf = true
  within : m.within size

section
variable {m : Memory} {size level : Nat}

theorem memory_sound_nil (size : Nat) : Memory.Sound [] size 0 :=
  ⟨Nat.zero_le _, memory_filled_zero _, memory_wf_nil, memory_within_nil _⟩

/-- Clearing the fill level asks nothing of the bytes (rules R124, R150). -/
theorem memory_sound_clear (h : m.Sound size level) : m.Sound size 0 :=
  { h with level_le := Nat.zero_le _, filled := memory_filled_zero _ }

theorem memory_sound_write {i : Nat} (b : Byte) (hi : i < size) (h : m.Sound size level) :
    (m.write i b).Sound size level :=
  ⟨h.level_le, memory_filled_write i b h.filled, memory_wf_write i b h.wf, memory_within_write b hi h.within⟩

/-- A push: the byte at the fill level written and the level raised (rules R125, R151). -/
theorem memory_sound_push (b : Byte) (hlt : level < size) (h : m.Sound size level) :
    (m.write level b).Sound size (level + 1) :=
  { memory_sound_write b hlt h with level_le := hlt, filled := memory_filled_write_succ b h.filled }

theorem memory_sound_writeAll {i : Nat} {bs : List Byte} (hfits : i + bs.length ≤ size) (h : m.Sound size level) :
    (m.writeAll i bs).Sound size level :=
  ⟨h.level_le, memory_filled_writeAll i bs h.filled, memory_wf_writeAll i bs h.wf,
    memory_within_writeAll bs hfits h.within⟩

/-- A store written anew from index 0: the level is the number of bytes written (rules R160, R161). -/
theorem memory_sound_refill {bs : List Byte} (hfits : bs.length ≤ size) (h : m.Sound size level) :
    (m.writeAll 0 bs).Sound size bs.length :=
  { memory_sound_writeAll (by omega) h with
    level_le := hfits, filled := memory_filled_of_holds (memory_holds_writeAll m bs) }

end

/-! ### The whole state -/

/-- The invariant of rule R34, by store. -/
structure State.Sound (s : State) : Prop where
  pl : s.pl.Sound 255 s.len.toNat
  buf : s.buf.Sound 260 s.cnt.toNat
  ecode : s.ecode.toNat ∈ [0, 2, 3, 4, 5, 9, 10, 11]

/-- `LEN` is at most 255 by its width; everything else is the same list of conditions. -/
theorem inv_iff_sound {s : State} : s.Inv ↔ s.Sound := by
  constructor
  · rintro ⟨hcnt, hplFilled, hbufFilled, hplWf, hbufWf, hplWithin, hbufWithin, hecode⟩
    have hlen : s.len.toNat ≤ 255 := Nat.le_of_lt_succ s.len.isLt
    exact ⟨⟨hlen, hplFilled, hplWf, hplWithin⟩, ⟨hcnt, hbufFilled, hbufWf, hbufWithin⟩, hecode⟩
  · rintro ⟨hpl, hbuf, hecode⟩
    exact ⟨hbuf.level_le, hpl.filled, hbuf.filled, hpl.wf, hbuf.wf, hpl.within, hbuf.within, hecode⟩

/-- The number of a code the block produces is one of the values of `ECODE` (rules R30, R203). -/
theorem codeBits_mem_of_mem_blockCodes : ∀ c ∈ blockCodes, (codeBits c).toNat ∈ [0, 2, 3, 4, 5, 9, 10, 11] := by
  decide

theorem sound_takeFailure {s : State} {c : Code} (hc : c ∈ blockCodes) (h : s.Sound) : (takeFailure c s).Sound := by
  have hecode : (takeFailure c s).ecode.toNat ∈ [0, 2, 3, 4, 5, 9, 10, 11] := by
    rw [takeFailure_ecode]
    split
    · exact codeBits_mem_of_mem_blockCodes c hc
    · exact h.ecode
  exact { h with ecode := hecode }

theorem sound_resetBlock (s : State) : (resetBlock s).Sound :=
  ⟨memory_sound_nil _, memory_sound_nil _, List.mem_cons_self⟩

/-! ### One rule per shared operation -/

/-- The outcome is a next state, and that state has the invariant. -/
def AnswersSound (r : Result) : Prop :=
  ∃ t, r = .next t ∧ t.Sound

section
variable {s : State}

theorem answersSound_next (h : s.Sound) : AnswersSound (.next s) := ⟨s, rfl, h⟩

theorem answersSound_done (h : s.Sound) : AnswersSound (done s) := answersSound_next { h with }

theorem answersSound_answer (v : Word) (h : s.Sound) : AnswersSound (answer v s) := answersSound_next { h with }

theorem answersSound_fail {c : Code} (hc : c ∈ blockCodes) (h : s.Sound) : AnswersSound (fail c s) :=
  answersSound_next (sound_takeFailure hc h)

theorem answersSound_ite {p : Prop} [Decidable p] {r q : Result} (hpos : p → AnswersSound r)
    (hneg : ¬p → AnswersSound q) : AnswersSound (if p then r else q) := by
  split
  · exact hpos ‹_›
  · exact hneg ‹_›

theorem answersSound_orBadOperand {α : Type} {r : Option α} {k : α → Result} (h : s.Sound)
    (hk : ∀ a, r = some a → AnswersSound (k a)) : AnswersSound (orBadOperand r s k) := by
  cases r with
  | none => exact answersSound_fail (by decide) h
  | some a => exact hk a rfl

/-- Below the fill level a byte has been written, so reading it is no fault. -/
theorem answersSound_readByte {st : Store} {i level : Nat} {k : Byte → Result}
    (h : (storeOf st s).Sound (storeSize st) level) (hi : i < level) (hk : ∀ b, AnswersSound (k b)) :
    AnswersSound (orFault (readByte st i s) k) := by
  obtain ⟨b, hb⟩ := Option.isSome_iff_exists.1 (h.filled i hi)
  rw [readByte_eq_ok (hi.trans_le h.level_le) hb, orFault_ok]
  exact hk b

theorem answersSound_readBytes {st : Store} {n level : Nat} {k : List Byte → Result}
    (h : (storeOf st s).Sound (storeSize st) level) (hn : n ≤ level)
    (hk : ∀ bs : List Byte, bs.length = n → AnswersSound (k bs)) : AnswersSound (orFault (readBytes st 0 n s) k) := by
  obtain ⟨bs, rfl, hbs⟩ := memory_exists_holds h.filled
  rw [readBytes_take hn (hn.trans h.level_le) hbs, orFault_ok]
  exact hk _ (List.length_take_of_le hn)

theorem answersSound_writeByte {st : Store} {i : Nat} {b : Byte} {k : State → Result} (hi : i < storeSize st)
    (hk : AnswersSound (k (setStore st ((storeOf st s).write i b) s))) :
    AnswersSound (orFault (writeByte st i b s) k) := by
  rwa [writeByte_eq_ok b s hi, orFault_ok]

theorem answersSound_writeBytes {st : Store} {i : Nat} {bs : List Byte} {k : State → Result}
    (hfits : i + bs.length ≤ storeSize st) (hk : AnswersSound (k (setStore st ((storeOf st s).writeAll i bs) s))) :
    AnswersSound (orFault (writeBytes st i bs s) k) := by
  rwa [writeBytes_eq_ok bs s hfits, orFault_ok]

end

/-! ### The commands that touch a store -/

/-- A register below its greatest value counts up without wrapping around. -/
theorem toNat_succ_of_lt {n : Nat} {x : BitVec n} (h : x.toNat + 1 < 2 ^ n) : (x + 1#n).toNat = x.toNat + 1 := by
  rw [BitVec.toNat_add, BitVec.toNat_ofNat, Nat.add_mod_mod, Nat.mod_eq_of_lt h]

section
variable {s : State} (h : s.Sound)
include h

/-- `PLPUSH` writes below 255 and counts `LEN` up to 255 at most. -/
theorem execPlpush_answersSound (k : Byte) : AnswersSound (execPlpush k s) := by
  refine answersSound_ite (fun _ => answersSound_fail (by decide) h) fun hne => ?_
  have hlt : s.len.toNat < 255 := lt_of_le_of_ne h.pl.level_le hne
  have hlen : (s.len + 1).toNat = s.len.toNat + 1 := toNat_succ_of_lt (by omega)
  have hpl : (s.pl.write s.len.toNat k).Sound 255 (s.len + 1).toNat := hlen ▸ memory_sound_push k hlt h.pl
  exact answersSound_writeByte hlt (answersSound_done { h with pl := hpl })

/-- `BUFPUSH` writes below 260 and counts `CNT` up to 260 at most. -/
theorem execBufpush_answersSound (k : Byte) : AnswersSound (execBufpush k s) := by
  refine answersSound_ite (fun _ => answersSound_fail (by decide) h) fun hne => ?_
  have hlt : s.cnt.toNat < 260 := lt_of_le_of_ne h.buf.level_le hne
  have hcnt : (s.cnt + 1).toNat = s.cnt.toNat + 1 := toNat_succ_of_lt (by omega)
  have hbuf : (s.buf.write s.cnt.toNat k).Sound 260 (s.cnt + 1).toNat := hcnt ▸ memory_sound_push k hlt h.buf
  exact answersSound_writeByte hlt (answersSound_done { h with buf := hbuf })

/-- A read behind a checked operand: what passes the check is below the store's fill level (rules R131, R153, R154). -/
theorem answersSound_indexedRead {st : Store} {idx : Option Nat} {level : Nat}
    (hst : (storeOf st s).Sound (storeSize st) level) (hidx : ∀ i, idx = some i → i < level) :
    AnswersSound (orBadOperand idx s fun i => orFault (readByte st i s) fun b => answer (zext16 b) s) :=
  answersSound_orBadOperand h fun i hi => answersSound_readByte hst (hidx i hi) fun _ => answersSound_answer _ h

theorem execRdpl_answersSound (k : Byte) : AnswersSound (execRdpl k s) :=
  answersSound_indexedRead h h.pl fun _ hi => by
    obtain ⟨rfl, hlt⟩ := payloadIndex_eq_some_iff.1 hi
    exact hlt

theorem execRdbuf_answersSound (k : Byte) : AnswersSound (execRdbuf k s) :=
  answersSound_indexedRead h h.buf fun _ hi => by
    obtain ⟨rfl, hlt⟩ := bufferIndex_eq_some_iff.1 hi
    exact hlt

theorem execRdbufh_answersSound (k : Byte) : AnswersSound (execRdbufh k s) :=
  answersSound_indexedRead h h.buf fun _ hi => by
    obtain ⟨rfl, -, hlt⟩ := bufferIndexHigh_eq_some_iff.1 hi
    exact hlt

/-- `ENCODE` writes `BUF` from index 0 up to the `CNT` it sets, which is at most 260 and so fits its 9 bits. -/
theorem execEncode_answersSound : AnswersSound (execEncode s) := by
  have hlen : s.len.toNat ≤ 255 := h.pl.level_le
  refine answersSound_readBytes h.pl le_rfl fun p hp => ?_
  simp only [body_append_trailer]
  have himage (b : Byte) : (wireImage (frameBody b s.txid s.len p)).length = 5 + s.len.toNat := by
    rw [wireImage_length, frameBody_length, hp]
    omega
  have hcnt : (BitVec.ofNat 9 (5 + s.len.toNat)).toNat = 5 + s.len.toNat := by
    rw [BitVec.toNat_ofNat, Nat.mod_eq_of_lt (by omega)]
  have hfits (b : Byte) : (wireImage (frameBody b s.txid s.len p)).length ≤ 260 := by
    rw [himage]
    omega
  refine answersSound_writeBytes (by simpa using hfits _) (answersSound_done { h with buf := ?_ })
  show Memory.Sound _ 260 (BitVec.ofNat 9 (5 + s.len.toNat)).toNat
  rw [hcnt, ← himage]
  exact memory_sound_refill (hfits _) h.buf

/-- Steps 5 to 8 of `DECODE` read below `CNT`, and write `PL` from index 0 up to the `LEN` they set. -/
theorem decodeExtent_answersSound (b0 id l : Byte) : AnswersSound (decodeExtent b0 id l s) := by
  refine answersSound_ite (fun _ => answersSound_fail (by decide) h) fun hfits => ?_
  simp only [Config.minFrameBytes, Config.headerBytes] at hfits ⊢
  refine answersSound_readBytes h.buf (by omega) fun body hbody => ?_
  refine answersSound_readByte h.buf (by omega) fun low => ?_
  refine answersSound_readByte h.buf (by omega) fun high => ?_
  refine answersSound_ite (fun _ => answersSound_fail (by decide) h) fun _ => ?_
  have hlen : (body.drop 3).length = l.toNat := by
    rw [List.length_drop]
    omega
  have hpl : (body.drop 3).length ≤ 255 := by omega
  refine answersSound_writeBytes (by simpa using hpl) (answersSound_done { h with pl := ?_ })
  exact hlen ▸ memory_sound_refill hpl h.pl

/-- `DECODE` reads its header below `CNT`. -/
theorem execDecode_answersSound : AnswersSound (execDecode s) := by
  refine answersSound_ite (fun _ => answersSound_fail (by decide) h) fun hmin => ?_
  simp only [Config.minFrameBytes] at hmin
  refine answersSound_readByte h.buf (by omega) fun b0 => ?_
  refine answersSound_readByte h.buf (by omega) fun id => ?_
  refine answersSound_readByte h.buf (by omega) fun l => ?_
  refine answersSound_ite (fun _ => answersSound_fail (by decide) h) fun _ => ?_
  exact answersSound_ite (fun _ => answersSound_fail (by decide) h) fun _ => decodeExtent_answersSound h b0 id l

/-- `TAG` reads and writes below `CNT`: the buffer with the id byte replaced is read up to the trailer. -/
theorem execTag_answersSound (k : Byte) : AnswersSound (execTag k s) := by
  refine answersSound_ite (fun _ => answersSound_fail (by decide) h) fun hmin => ?_
  simp only [Config.minFrameBytes] at hmin
  have hcnt : s.cnt.toNat ≤ 260 := h.buf.level_le
  refine answersSound_readByte h.buf (by omega) fun b0 => ?_
  refine answersSound_ite (fun _ => answersSound_fail (by decide) h) fun _ => ?_
  have htagged : (s.buf.write 1 k).Sound 260 s.cnt.toNat := memory_sound_write k (by omega) h.buf
  refine answersSound_writeByte (by decide) ?_
  refine answersSound_readBytes htagged (Nat.sub_le _ _) fun body _ => ?_
  have hfits : s.cnt.toNat - 2 + (trailer (crc16 body)).length ≤ 260 := by
    simp only [trailer, List.length_cons, List.length_nil]
    omega
  exact answersSound_writeBytes hfits (answersSound_done { h with buf := memory_sound_writeAll hfits htagged })

/-! ### Every command, and the step -/

/-- Every command: one that touches no store changes nothing the invariant speaks of, or clears a fill level or
`ECODE`. -/
theorem exec_answersSound (i : Instr) : AnswersSound (exec i s) := by
  cases i with
  | nop | crcinit | crcbyte | setid | setb0 => exact answersSound_done { h with }
  | rdstat | rdcrc | rdver | rdflg | rdid | rdlen | rdcsum | rdclass | rdb0 | rdcnt => exact answersSound_answer _ h
  | setver | setflg => exact answersSound_orBadOperand h fun _ _ => answersSound_done { h with }
  | reset => exact answersSound_done (sound_resetBlock s)
  | clrerr => exact answersSound_done { h with ecode := List.mem_cons_self }
  | plclr => exact answersSound_done { h with pl := memory_sound_clear h.pl }
  | bufclr => exact answersSound_done { h with buf := memory_sound_clear h.buf }
  | plpush k => exact execPlpush_answersSound h k
  | bufpush k => exact execBufpush_answersSound h k
  | rdpl k => exact execRdpl_answersSound h k
  | rdbuf k => exact execRdbuf_answersSound h k
  | rdbufh k => exact execRdbufh_answersSound h k
  | encode => exact execEncode_answersSound h
  | decode => exact execDecode_answersSound h
  | tag k => exact execTag_answersSound h k

/-- A command word, whether it is a command or not. -/
theorem stepCommand_answersSound (w : Word) : AnswersSound (stepCommand w s) := by
  unfold stepCommand
  split
  · exact exec_answersSound h _
  · exact answersSound_fail (by decide) h

/-- Every event of the host, and none. -/
theorem step_answersSound : AnswersSound (step s) := by
  have htaken (rest : List HostEvent) : State.Sound { s with pending := rest } := { h with }
  unfold step
  split
  · exact answersSound_next h
  · exact stepCommand_answersSound (htaken _) _
  · exact answersSound_next (sound_resetBlock _)

end

/-- From a state with the invariant of rule R34 a step is answered, with a state that has it. -/
theorem step_answers_inv {s : State} (h : s.Inv) : ∃ t, step s = .next t ∧ t.Inv := by
  obtain ⟨t, hstep, ht⟩ := step_answersSound (inv_iff_sound.1 h)
  exact ⟨t, hstep, inv_iff_sound.2 ht⟩

/-- Settles O50: the state a step answers is the one `step_answers_inv` speaks of. -/
theorem stepKeepsTheInvariant : Obligations.StepKeepsTheInvariant := by
  intro s t h hs
  obtain ⟨u, hu, hinv⟩ := step_answers_inv h
  cases hs.symm.trans hu
  exact hinv

end Sys2Proof.Machine
end

section
/-! PROOFS. Several instances (rule R59, log entry 9): what a platform step does, in terms of the step of one of them. -/

namespace Sys2Proof.Machine

/-- Where the block named steps, the platform steps with it. -/
theorem stepAt_of_step {p : List State} {j : Nat} {s t : State} (hj : p[j]? = some s) (hs : step s = .next t) :
    stepAt j p = .next (p.set j t) := by
  simp only [stepAt, hj, hs]

/-- Beyond the list there is nothing to step. -/
theorem stepAt_of_none {p : List State} {j : Nat} (hj : p[j]? = none) : stepAt j p = .next p := by
  simp only [stepAt, hj]

/-- A step of another block leaves a block's own step what it was. -/
theorem stepAt_set_of_ne {p : List State} {j k : Nat} {s t : State} (u : State) (hne : k ≠ j) (hj : p[j]? = some s)
    (hs : step s = .next t) : stepAt j (p.set k u) = .next ((p.set k u).set j t) :=
  stepAt_of_step ((List.getElem?_set_ne hne).trans hj) hs

/-- A platform whose blocks all have the invariant answers a step of any of them, and all of them still have it. -/
theorem stepAt_answers_inv {p : List State} (j : Nat) (h : ∀ s ∈ p, s.Inv) :
    ∃ q, stepAt j p = .next q ∧ q.length = p.length ∧ ∀ s ∈ q, s.Inv := by
  cases hj : p[j]? with
  | none => exact ⟨p, stepAt_of_none hj, rfl, h⟩
  | some s =>
    obtain ⟨t, hs, ht⟩ := step_answers_inv (h s (List.mem_of_getElem? hj))
    refine ⟨p.set j t, stepAt_of_step hj hs, List.length_set, fun u hu => ?_⟩
    obtain hmem | rfl := List.mem_or_eq_of_mem_set hu
    · exact h u hmem
    · exact ht

/-- Settles O53: a platform step is the step of the block named, written to its own place in the list, and writes to two
places commute. -/
theorem instancesAreIndependent : Obligations.InstancesAreIndependent := by
  refine ⟨fun p j s t hj hs => ?_, fun p j k s s' t t' hne hj hk hs hs' => ?_, fun p j h => stepAt_answers_inv j h⟩
  · obtain ⟨hlt, -⟩ := List.getElem?_eq_some_iff.1 hj
    exact ⟨stepAt_of_step hj hs, List.getElem?_set_self hlt, fun k hkj => List.getElem?_set_ne hkj.symm⟩
  · refine ⟨stepAt_set_of_ne t hne hk hs', ?_⟩
    rw [List.set_comm t t' hne]
    exact stepAt_set_of_ne t' hne.symm hj hs

end Sys2Proof.Machine
end

section
/-! PROOFS. The encoding of the command word (rules R85, R87, R88). The match and mask columns, which the decoder
reads, say of a word's two fields what the opcode and format columns say, and the opcodes are distinct; so a word
decodes to a command exactly when it is the word the encoder gives that command. -/

namespace Sys2Proof

/-! ### A word and its two fields -/

/-- A word is its opcode field followed by its operand field (rule R85). -/
theorem opcodeField_append_operandField (w : Word) : opcodeField w ++ operandField w = w :=
  Machine.joinBytes_high_low w

/-- The number of an assembled word: the opcode counts 256. -/
theorem opcode_append_toNat (op b : Byte) : (op ++ b).toNat = op.toNat * 256 + b.toNat := by
  have hjoin : (op ++ b).toNat = b.toNat + 256 * op.toNat := Machine.joinBytes_toNat op b
  omega

/-- The number of a word in terms of its fields (rule R85). -/
theorem word_toNat (w : Word) : w.toNat = (opcodeField w).toNat * 256 + (operandField w).toNat := by
  rw [← opcode_append_toNat, opcodeField_append_operandField]

/-! ### Commands, mnemonics and operands -/

/-- A command is built again from its mnemonic and its operand, if it has one. -/
theorem build_mnemonic_operand (i : Instr) : i.mnemonic.build (i.operand?.getD 0x00) = i := by
  cases i <;> rfl

@[simp] theorem build_mnemonic (m : Mnemonic) (b : Byte) : (m.build b).mnemonic = m := by
  cases m <;> rfl

/-- A built command carries the operand field in format `I` and has none in format `N` (rule R85). -/
theorem build_operand? (m : Mnemonic) (b : Byte) : (m.build b).operand? = if m.format = .i then some b else none := by
  cases m <;> rfl

/-- Every command is well formed: `Instr.wf` holds of each constructor. -/
theorem instr_wf (i : Instr) : i.wf = true := by
  cases i <;> rfl

/-- A format `N` command has no operand (rule R85). -/
theorem operand?_eq_none_of_format_n {i : Instr} (h : i.mnemonic.format = .n) : i.operand? = none := by
  rw [← build_mnemonic_operand i, build_operand?, h]
  rfl

/-- The word of a format `I` command (rules R85, R89). -/
theorem encode_build_of_format_i {m : Mnemonic} (h : m.format = .i) (b : Byte) :
    encode (m.build b) = m.opcode ++ b := by
  rw [encode, build_mnemonic, build_operand?, if_pos h, Option.getD_some]

/-- The word of a format `N` command, whatever field it is built with (rules R85, R89). -/
theorem encode_build_of_format_n {m : Mnemonic} (h : m.format = .n) (b : Byte) :
    encode (m.build b) = m.opcode ++ (0x00 : Byte) := by
  rw [encode, build_mnemonic, build_operand?, h]
  rfl

/-! ### The opcode table -/

/-- The row of rule R87 as its columns "Opcode" and "Format" give it: the match column is the opcode with operand zero,
and the mask covers the operand field in format `N` alone. -/
def Mnemonic.row (m : Mnemonic) : OpRow :=
  ⟨m, m.opcode ++ (0x00 : Byte), (0xFF : Byte) ++ (if m.format = .n then 0xFF else 0x00 : Byte)⟩

theorem row_mem_opcodeTable (m : Mnemonic) : m.row ∈ opcodeTable := by
  cases m <;> decide

theorem eq_row_of_mem_opcodeTable : ∀ r ∈ opcodeTable, r = r.mnemonic.row := by
  decide

/-- No two rows have the same opcode. -/
theorem opcodeTable_opcodes_nodup : (opcodeTable.map (·.mnemonic.opcode)).Nodup := by
  decide

/-- Of two rows with the same opcode there is one only. -/
theorem opcode_injective {m n : Mnemonic} (h : m.opcode = n.opcode) : m = n :=
  congrArg OpRow.mnemonic
    (List.inj_on_of_nodup_map opcodeTable_opcodes_nodup (row_mem_opcodeTable m) (row_mem_opcodeTable n) h)

/-- What a mask of two bytes keeps of a word. -/
theorem and_eq_append_iff (w : Word) (opMask b op p : Byte) :
    w &&& (opMask ++ b) = op ++ p ↔ opcodeField w &&& opMask = op ∧ operandField w &&& b = p := by
  conv_lhs => rw [← opcodeField_append_operandField w, BitVec.and_append]
  constructor
  · intro h
    have hop := congrArg opcodeField h
    have hb := congrArg operandField h
    simp only [Laws.opcodeField_append, Laws.operandField_append] at hop hb
    exact ⟨hop, hb⟩
  · rintro ⟨rfl, rfl⟩
    rfl

/-- Which words a row selects (rules R87, R88): those with its opcode and, in format `N`, operand zero. -/
theorem row_selects_iff (m : Mnemonic) (w : Word) :
    m.row.selects w = true ↔ opcodeField w = m.opcode ∧ (m.format = .n → operandField w = 0x00) := by
  have hones (b : Byte) : b &&& 0xFF = b := BitVec.and_allOnes
  have hzero (b : Byte) : b &&& 0x00 = 0x00 := BitVec.and_zero
  simp only [OpRow.selects, Mnemonic.row, beq_iff_eq, and_eq_append_iff, hones]
  cases m.format with
  | n => simp only [↓reduceIte, hones, true_implies]
  | i => simp only [reduceCtorEq, ↓reduceIte, hzero, false_implies]

/-! ### The decoder -/

/-- The row that decoding finds is its mnemonic's row, and selects the word. -/
theorem selects_of_find?_eq_some {w : Word} {r : OpRow} (h : opcodeTable.find? (·.selects w) = some r) :
    r.mnemonic.row.selects w = true := by
  rw [← eq_row_of_mem_opcodeTable r (List.mem_of_find?_eq_some h)]
  exact List.find?_some (p := fun q : OpRow => q.selects w) h

/-- A word decodes to a command exactly when some mnemonic's row selects it and builds the command with its operand
field: no other row can come first. -/
theorem decode_eq_ok_iff_row {w : Word} {i : Instr} :
    decode w = .ok i ↔ ∃ m : Mnemonic, m.row.selects w = true ∧ m.build (operandField w) = i := by
  unfold decode
  constructor
  · intro h
    split at h
    · rename_i r hfind
      exact ⟨r.mnemonic, selects_of_find?_eq_some hfind, Except.ok.inj h⟩
    · cases h
  · rintro ⟨m, hsel, rfl⟩
    split
    · rename_i r hfind
      obtain ⟨hr, -⟩ := (row_selects_iff _ w).1 (selects_of_find?_eq_some hfind)
      obtain ⟨hm, -⟩ := (row_selects_iff m w).1 hsel
      rw [opcode_injective (hr.symm.trans hm)]
    · rename_i hfind
      exact absurd hsel (List.find?_eq_none.1 hfind _ (row_mem_opcodeTable m))

/-- A word decodes to a command exactly when it is the command's one word. -/
theorem decode_eq_ok_iff {w : Word} {i : Instr} : decode w = .ok i ↔ encode i = w := by
  rw [decode_eq_ok_iff_row]
  constructor
  · rintro ⟨m, hsel, rfl⟩
    obtain ⟨hopcode, hoperand⟩ := (row_selects_iff m w).1 hsel
    conv_rhs => rw [← opcodeField_append_operandField w, hopcode]
    cases hformat : m.format with
    | n => rw [encode_build_of_format_n hformat, hoperand hformat]
    | i => rw [encode_build_of_format_i hformat]
  · rintro rfl
    obtain ⟨hopcode, hoperand⟩ := Laws.opcodeByte_all i
    refine ⟨i.mnemonic, (row_selects_iff _ _).2 ⟨hopcode, fun hformat => ?_⟩, ?_⟩
    · rw [hoperand, operand?_eq_none_of_format_n hformat, Option.getD_none]
    · rw [hoperand, build_mnemonic_operand]

/-- Settles O2: `decode_eq_ok_iff` at the command's own word. Every command is well formed, so that adds nothing. -/
theorem decodeOfEncodeIsTheCommand : Obligations.DecodeOfEncodeIsTheCommand :=
  fun _ _ => decode_eq_ok_iff.2 rfl

/-- Settles O3: `decode_eq_ok_iff` the other way. -/
theorem encodeOfDecodeIsTheWord : Obligations.EncodeOfDecodeIsTheWord :=
  fun _ i h => ⟨decode_eq_ok_iff.1 h, instr_wf i⟩

/-- Settles O1: each of the eight words is what the encoder gives its command. -/
theorem sampleWordsDecode : Obligations.SampleWordsDecode :=
  ⟨decode_eq_ok_iff.2 rfl, decode_eq_ok_iff.2 rfl, decode_eq_ok_iff.2 rfl, decode_eq_ok_iff.2 rfl,
    decode_eq_ok_iff.2 rfl, decode_eq_ok_iff.2 rfl, decode_eq_ok_iff.2 rfl, decode_eq_ok_iff.2 rfl⟩

/-! ### The legal words -/

/-- The 18 format `N` commands' words as numbers (rule R88). -/
def formatNWords : List Nat :=
  (Machine.allMnemonics.filter (·.format = .n)).map (·.opcode.toNat * 256)

/-- The 11 format `I` opcodes as numbers (rule R88). -/
def formatIOpcodes : List Nat :=
  (Machine.allMnemonics.filter (·.format = .i)).map (·.opcode.toNat)

theorem mem_allMnemonics (m : Mnemonic) : m ∈ Machine.allMnemonics :=
  List.mem_map.2 ⟨m.row, row_mem_opcodeTable m, rfl⟩

theorem mem_formatNWords_iff {n : Nat} :
    n ∈ formatNWords ↔ ∃ m : Mnemonic, m.format = .n ∧ m.opcode.toNat * 256 = n := by
  simp [formatNWords, mem_allMnemonics]

theorem mem_formatIOpcodes_iff {n : Nat} :
    n ∈ formatIOpcodes ↔ ∃ m : Mnemonic, m.format = .i ∧ m.opcode.toNat = n := by
  simp [formatIOpcodes, mem_allMnemonics]

/-- A format `N` row selects exactly the word of its opcode with operand zero. -/
theorem row_selects_iff_of_format_n {m : Mnemonic} (h : m.format = .n) (w : Word) :
    m.row.selects w = true ↔ m.opcode.toNat * 256 = w.toNat := by
  have hlt := (operandField w).isLt
  have hzero : (0x00 : Byte).toNat = 0 := rfl
  simp only [row_selects_iff, h, true_implies, word_toNat w, ← BitVec.toNat_inj, hzero]
  omega

/-- A format `I` row selects exactly the words of its opcode. -/
theorem row_selects_iff_of_format_i {m : Mnemonic} (h : m.format = .i) (w : Word) :
    m.row.selects w = true ↔ m.opcode.toNat = w.toNat / 256 := by
  have hlt := (operandField w).isLt
  simp only [row_selects_iff, h, reduceCtorEq, false_implies, and_true, word_toNat w, ← BitVec.toNat_inj]
  omega

/-- A word is legal exactly when some row selects it. -/
theorem decode_isOk_iff {w : Word} :
    (∃ i, decode w = .ok i) ↔ w.toNat ∈ formatNWords ∨ w.toNat / 256 ∈ formatIOpcodes := by
  rw [mem_formatNWords_iff, mem_formatIOpcodes_iff]
  constructor
  · rintro ⟨i, h⟩
    obtain ⟨m, hsel, -⟩ := decode_eq_ok_iff_row.1 h
    cases hformat : m.format with
    | n => exact .inl ⟨m, hformat, (row_selects_iff_of_format_n hformat w).1 hsel⟩
    | i => exact .inr ⟨m, hformat, (row_selects_iff_of_format_i hformat w).1 hsel⟩
  · rintro (⟨m, hformat, hw⟩ | ⟨m, hformat, hw⟩)
    · exact ⟨_, decode_eq_ok_iff_row.2 ⟨m, (row_selects_iff_of_format_n hformat w).2 hw, rfl⟩⟩
    · exact ⟨_, decode_eq_ok_iff_row.2 ⟨m, (row_selects_iff_of_format_i hformat w).2 hw, rfl⟩⟩

/-- At most one row selects a word, the opcodes being distinct. -/
theorem selecting_rows_length_le_one (w : Word) : (opcodeTable.filter (fun r => r.selects w)).length ≤ 1 := by
  have hopcode : ∀ r ∈ opcodeTable.filter (fun r => r.selects w), opcodeField w = r.mnemonic.opcode := by
    intro r hr
    obtain ⟨hmem, hsel⟩ := List.mem_filter.1 hr
    rw [eq_row_of_mem_opcodeTable r hmem] at hsel
    exact ((row_selects_iff _ w).1 hsel).1
  have hdistinct := (List.pairwise_map.1 opcodeTable_opcodes_nodup).filter (fun r => r.selects w)
  generalize opcodeTable.filter (fun r => r.selects w) = rows at hopcode hdistinct
  match rows with
  | [] | [_] => simp
  | r :: q :: _ =>
    have hne : r.mnemonic.opcode ≠ q.mnemonic.opcode := List.rel_of_pairwise_cons hdistinct (by simp)
    exact absurd ((hopcode r (by simp)).symm.trans (hopcode q (by simp))) hne

/-- Settles O4: the two lists of the statement are those the opcode and format columns give. -/
theorem decodeAcceptsExactlyTheTable : Obligations.DecodeAcceptsExactlyTheTable :=
  fun w => ⟨decode_isOk_iff (w := w), selecting_rows_length_le_one w⟩

end Sys2Proof
end

section
/-! PROOFS. What a command word is answered with (rules R86, R88, R200, R203). -/

namespace Sys2Proof.Machine

/-! ### A word that is no command -/

/-- A word that decodes to no command is `IllegalCommand`, and nothing else about it is examined. -/
theorem stepCommand_of_decode_ne_ok {w : Word} (h : ∀ i, decode w ≠ .ok i) (s : State) :
    stepCommand w s = .next (takeFailure .illegalCommand s) := by
  unfold stepCommand
  split
  · exact absurd ‹_› (h _)
  · exact fail_eq _ s

/-- Settles O5: the step takes the word and enters the failure, whose number is 9. -/
theorem illegalWordChangesOnlyEcode : Obligations.IllegalWordChangesOnlyEcode := by
  intro s w rest hpending hillegal
  calc step s
      _ = stepCommand w { s with pending := rest } := step_of_pending_command hpending
      _ = .next (takeFailure .illegalCommand { s with pending := rest }) := stepCommand_of_decode_ne_ok hillegal _

/-! ### The response of a command -/

/-- The 13 commands that read a value out (rule R86). -/
def readCommands : List Mnemonic :=
  [.rdstat, .rdcrc, .rdver, .rdflg, .rdid, .rdlen, .rdcsum, .rdpl, .rdclass, .rdb0, .rdcnt, .rdbuf, .rdbufh]

/-- What rules R86 and R203 allow as response to a command: one of the block's codes, and data other than zero only with
`OK` and only from a read command (`reads`). -/
structure Response.Allowed (reads : Prop) (r : Response) : Prop where
  code_mem : r.code ∈ blockCodes
  data_of_fail : r.code ≠ .ok → r.data = 0x0000
  data_of_not_reads : ¬reads → r.data = 0x0000

/-- The state holds a response, an allowed one. -/
def State.Answered (reads : Prop) (t : State) : Prop :=
  ∃ r, t.resp = some r ∧ r.Allowed reads

section
variable {reads : Prop}

/-- Without data any code of the block will do. -/
theorem answered_of_zero {c : Code} {t : State} (hc : c ∈ blockCodes) (h : t.resp = some ⟨c, 0x0000⟩) :
    t.Answered reads :=
  ⟨_, h, hc, fun _ => rfl, fun _ => rfl⟩

theorem answered_done (s : State) : (respond .ok 0x0000 s).Answered reads :=
  answered_of_zero (by decide) rfl

theorem answered_takeFailure {c : Code} (s : State) (hc : c ∈ blockCodes) : (takeFailure c s).Answered reads :=
  answered_of_zero hc rfl

/-- A read command may answer `OK` with any data. -/
theorem answered_read (v : Word) (s : State) (h : reads) : (respond .ok v s).Answered reads :=
  ⟨_, rfl, List.mem_cons_self, fun hne => absurd rfl hne, fun hnot => absurd h hnot⟩

/-- A read of one byte behind a checked operand (rules R131, R153, R154). -/
theorem answered_indexedRead {idx : Option Nat} {st : Store} {s t : State} (hreads : reads)
    (h : orBadOperand idx s (fun k => orFault (readByte st k s) fun b => answer (zext16 b) s) = .next t) :
    t.Answered reads := by
  obtain ⟨-, rfl⟩ | ⟨k, -, h⟩ := orBadOperand_eq_next_iff.1 h
  · exact answered_takeFailure s (by decide)
  · obtain ⟨b, -, h⟩ := orFault_eq_next_iff.1 h
    cases h
    exact answered_read _ s hreads

end

/-- Every command that answers a next state has given an allowed response. -/
theorem exec_answered {i : Instr} {s t : State} (h : exec i s = .next t) :
    t.Answered (i.mnemonic ∈ readCommands) := by
  cases i with
  | nop | reset | clrerr | crcinit | crcbyte | setid | setb0 | plclr | bufclr =>
    cases h
    exact answered_done _
  | rdstat | rdcrc | rdver | rdflg | rdid | rdlen | rdcsum | rdclass | rdb0 | rdcnt =>
    cases h
    exact answered_read _ s (by decide)
  | rdpl | rdbuf | rdbufh => exact answered_indexedRead (by simp [readCommands, Instr.mnemonic]) h
  | setver | setflg =>
    obtain ⟨-, rfl⟩ | ⟨v, -, h⟩ := orBadOperand_eq_next_iff.1 h
    · exact answered_takeFailure s (by decide)
    · cases h
      exact answered_done _
  | plpush =>
    obtain rfl | rfl := execPlpush_inv h
    · exact answered_takeFailure s (by decide)
    · exact answered_done _
  | bufpush =>
    obtain rfl | rfl := execBufpush_inv h
    · exact answered_takeFailure s (by decide)
    · exact answered_done _
  | encode =>
    obtain ⟨p, -, -, rfl⟩ := execEncode_inv h
    exact answered_done _
  | decode =>
    obtain ⟨c, hc, rfl⟩ | ⟨b0, id, l, p, -, -, -, -, -, rfl⟩ := execDecode_inv h
    · have hblock : [Code.truncated, .unsupportedVersion, .invalidFlags, .checksumMismatch] ⊆ blockCodes := by decide
      exact answered_takeFailure s (hblock hc)
    · exact answered_done _
  | tag =>
    obtain ⟨c, hc, rfl⟩ | ⟨body, -, -, -, -, rfl⟩ := execTag_inv h
    · have hblock : [Code.truncated, .unsupportedVersion] ⊆ blockCodes := by decide
      exact answered_takeFailure s (hblock hc)
    · exact answered_done _

/-- Settles O44: a word that is a command is answered by it, which also leaves the host's events alone
(`exec_writesOnlyItsOwn`); any other word is answered `IllegalCommand`. -/
theorem everyCommandIsAnswered : Obligations.EveryCommandIsAnswered := by
  intro w s t h
  by_cases hlegal : ∃ i, decode w = .ok i
  · obtain ⟨i, hi⟩ := hlegal
    rw [stepCommand_of_decode_eq_ok hi] at h
    obtain ⟨r, hr, hallowed⟩ := exec_answered h
    obtain ⟨-, -, -, -, -, -, -, -, -, hpending⟩ := exec_writesOnlyItsOwn h
    refine ⟨r, hr, hallowed.code_mem, hpending, hallowed.data_of_fail, fun j hj hnot => ?_⟩
    cases hi.symm.trans hj
    exact hallowed.data_of_not_reads hnot
  · rw [stepCommand_of_decode_ne_ok (not_exists.1 hlegal)] at h
    cases h
    exact ⟨_, rfl, by decide, rfl, fun _ => rfl, fun _ _ _ => rfl⟩

end Sys2Proof.Machine
end

section
/-! PROOFS. Loading a store (rules R90, R124, R125, R150, R151). `PLLOAD` and `BUFLOAD` are the same sequence over two
stores: the fill level cleared, then one byte pushed at a time. Both are followed once, for either store. -/

namespace Sys2Proof.Machine

/-! ### Command sequences -/

/-- A command that answers is followed by the rest of the sequence. -/
theorem execAll_cons_of_next {i : Instr} {s t : State} (h : exec i s = .next t) (is : List Instr) :
    execAll (i :: is) s = execAll is t := by
  simp only [execAll, h]

/-! ### One store and its fill level -/

/-- The state with contents `m` in one store and fill level `n`, in the register that belongs to the store. -/
def State.withFill (st : Store) (m : Memory) (n : Nat) (s : State) : State :=
  match st with
  | .pl => { s with pl := m, len := BitVec.ofNat 8 n }
  | .buf => { s with buf := m, cnt := BitVec.ofNat 9 n }

/-- The command that clears a store's fill level. -/
def clearCommand : Store → Instr
  | .pl => .plclr
  | .buf => .bufclr

/-- The command that pushes a byte to a store. -/
def pushCommand : Store → Byte → Instr
  | .pl => .plpush
  | .buf => .bufpush

/-- `PLPUSH` below the store's size (rule R125). -/
theorem execPlpush_of_lt {s : State} (b : Byte) (h : s.len.toNat < 255) :
    execPlpush b s = .next (respond .ok 0 { s with pl := s.pl.write s.len.toNat b, len := s.len + 1 }) := by
  rw [execPlpush, if_neg (Nat.ne_of_lt h), writeByte_eq_ok b s h]
  rfl

/-- `BUFPUSH` below the store's size (rule R151). -/
theorem execBufpush_of_lt {s : State} (b : Byte) (h : s.cnt.toNat < 260) :
    execBufpush b s = .next (respond .ok 0 { s with buf := s.buf.write s.cnt.toNat b, cnt := s.cnt + 1 }) := by
  rw [execBufpush, if_neg (Nat.ne_of_lt h), writeByte_eq_ok b s h]
  rfl

/-- Clearing keeps the contents (rules R124, R150). -/
theorem exec_clearCommand (st : Store) (s : State) :
    exec (clearCommand st) s = .next (respond .ok 0 (s.withFill st (storeOf st s) 0)) := by
  cases st <;> rfl

/-- A push below the store's size writes the byte at the fill level and raises the level, whatever was answered
before. -/
theorem exec_pushCommand {st : Store} {n : Nat} (m : Memory) (b : Byte) (s : State) (h : n < storeSize st) :
    exec (pushCommand st b) (respond .ok 0 (s.withFill st m n)) =
      .next (respond .ok 0 (s.withFill st (m.write n b) (n + 1))) := by
  cases st with
  | pl =>
    have hlen : (BitVec.ofNat 8 n).toNat = n := Nat.mod_eq_of_lt (lt_trans h (by decide))
    refine (execPlpush_of_lt b (hlen.trans_lt h)).trans ?_
    simp only [State.withFill, respond_pl, respond_len, hlen, BitVec.ofNat_add]
    rfl
  | buf =>
    have hcnt : (BitVec.ofNat 9 n).toNat = n := Nat.mod_eq_of_lt (lt_trans h (by decide))
    refine (execBufpush_of_lt b (hcnt.trans_lt h)).trans ?_
    simp only [State.withFill, respond_buf, respond_cnt, hcnt, BitVec.ofNat_add]
    rfl

/-- Pushes that fit write their bytes from the fill level up. -/
theorem execAll_pushCommands {st : Store} {n : Nat} (m : Memory) (bs : List Byte) (s : State)
    (h : n + bs.length ≤ storeSize st) :
    execAll (bs.map (pushCommand st)) (respond .ok 0 (s.withFill st m n)) =
      .next (respond .ok 0 (s.withFill st (m.writeAll n bs) (n + bs.length))) := by
  induction bs generalizing m n with
  | nil => rfl
  | cons b bs ih =>
    rw [List.length_cons] at h
    rw [List.map_cons, execAll_cons_of_next (exec_pushCommand m b s (by omega)), ih _ (by omega), List.length_cons,
      Nat.add_right_comm, Nat.add_assoc]
    rfl

/-- A load that fits leaves its bytes from index 0 up, and their number as fill level. -/
theorem execAll_load {st : Store} (bs : List Byte) (s : State) (h : bs.length ≤ storeSize st) :
    execAll (clearCommand st :: bs.map (pushCommand st)) s =
      .next (respond .ok 0 (s.withFill st ((storeOf st s).writeAll 0 bs) bs.length)) := by
  rw [execAll_cons_of_next (exec_clearCommand st s), execAll_pushCommands _ bs s (by omega), Nat.zero_add]

/-- Settles O54: `execAll_load` for each store; the number of bytes fits the register that counts them. -/
theorem loadsFillTheStores : Obligations.LoadsFillTheStores := by
  refine fun s bs => ⟨fun hfits => ?_, fun hfits => ?_⟩
  · have hlen : bs.length = (BitVec.ofNat 8 bs.length).toNat :=
      (Nat.mod_eq_of_lt (lt_of_le_of_lt hfits (by decide))).symm
    exact ⟨_, execAll_load (st := .pl) bs s hfits, ⟨hlen, memory_holds_writeAll s.pl bs⟩, rfl⟩
  · have hcnt : bs.length = (BitVec.ofNat 9 bs.length).toNat :=
      (Nat.mod_eq_of_lt (lt_of_le_of_lt hfits (by decide))).symm
    exact ⟨_, execAll_load (st := .buf) bs s hfits, ⟨hcnt, memory_holds_writeAll s.buf bs⟩, rfl⟩

end Sys2Proof.Machine
end

section
/-! PROOFS. Header byte 0 and the flags field (rules R71 to R76). -/

namespace Sys2Proof.Machine

/-- The version of a packed header byte (rule R71). -/
theorem b0Version_packB0 (v : Version) (f : Flags) : b0Version (packB0 v f) = v := by
  apply BitVec.eq_of_toNat_eq
  have hf := f.isLt
  rw [b0Version_toNat, packB0_toNat]
  omega

/-- The flags of a packed header byte (rule R71). -/
theorem b0Flags_packB0 (v : Version) (f : Flags) : b0Flags (packB0 v f) = f := by
  apply BitVec.eq_of_toNat_eq
  have hf := f.isLt
  rw [b0Flags_toNat, packB0_toNat]
  omega

/-- Settles O23, from the arithmetic of the two fields. -/
theorem byteZeroPackingIsABijection : Obligations.ByteZeroPackingIsABijection :=
  ⟨fun v f => ⟨packB0_toNat v f, b0Version_packB0 v f, b0Flags_packB0 v f⟩,
    fun b => ⟨b0Version_toNat b, b0Flags_toNat b, packB0_b0Version_b0Flags b⟩⟩

/-- Settles O24: both readings are `flagsOk_iff` for a number below 64, and the count is by enumeration. -/
theorem validFlagsAreTheTwentyEight : Obligations.ValidFlagsAreTheTwentyEight := by
  refine ⟨fun f => ?_, fun f => ?_, by decide⟩
  · have hf := f.isLt
    rw [flagsOk_iff]
    omega
  · have hf := f.isLt
    rw [flagsOk_iff]
    omega

/-- The type code as a number (rule R72). -/
theorem typeCode_toNat (f : Flags) : (typeCode f).toNat = f.toNat % 8 := by
  simp [typeCode]

/-- The terminator is the communication-end type with the chunk bit (rule R76). -/
theorem isTerminator_iff (f : Flags) : isTerminator f = true ↔ f.toNat % 8 = 7 ∧ f.getLsbD 3 = true := by
  have htype : typeCode f = 7 ↔ f.toNat % 8 = 7 := by
    rw [← BitVec.toNat_inj, typeCode_toNat]
    rfl
  simp only [isTerminator, chunkFlag, Bool.and_eq_true, beq_iff_eq, htype]

/-- A frame is complete without the chunk bit, or as the terminator (rule R76). -/
theorem isComplete_iff (f : Flags) : isComplete f = true ↔ f.getLsbD 3 = false ∨ isTerminator f = true := by
  simp only [isComplete, chunkFlag, Bool.or_eq_true, Bool.not_eq_true']

/-- The bits of the classification above the type code are the five conditions, in the order of rule R76. -/
theorem fclass_getLsbD (f : Flags) :
    (fclass f).getLsbD 3 = chunkFlag f ∧ (fclass f).getLsbD 4 = ackFlag f ∧ (fclass f).getLsbD 5 = flagsOk f ∧
      (fclass f).getLsbD 6 = isTerminator f ∧ (fclass f).getLsbD 7 = isComplete f := by
  simp only [fclass, BitVec.getLsbD_append]
  simp

/-- The low three bits of the classification are the type code (rule R76). -/
theorem fclass_toNat_mod (f : Flags) : (fclass f).toNat % 8 = f.toNat % 8 := by
  have htype := (typeCode f).isLt
  rw [← typeCode_toNat, fclass, BitVec.toNat_append, ← Nat.shiftLeft_add_eq_or_of_lt htype, Nat.shiftLeft_eq]
  omega

/-- Settles O25, bit by bit. -/
theorem flagsClassification : Obligations.FlagsClassification := by
  intro f
  obtain ⟨hchunk, hack, hok, hterm, hcomplete⟩ := fclass_getLsbD f
  refine ⟨fclass_toNat_mod f, hchunk, hack, hok, ?_, ?_⟩
  · rw [hterm, isTerminator_iff]
  · rw [hcomplete, isComplete_iff, isTerminator_iff]

end Sys2Proof.Machine
end

section
/-! PROOFS. The assembler (rules R85, R89): first the word of a line as a term, then the reading of its text. -/

namespace Sys2Proof.Machine

/-! ### A command line as a term -/

/-- The word of an opcode and an operand below 256, as a number (rule R85). -/
theorem opcode_append_ofNat (op : Byte) {n : Nat} (h : n < 256) :
    op ++ BitVec.ofNat 8 n = BitVec.ofNat 16 (op.toNat * 256 + n) := by
  have hop := op.isLt
  have hn : (BitVec.ofNat 8 n).toNat = n := Nat.mod_eq_of_lt h
  have hword : (BitVec.ofNat 16 (op.toNat * 256 + n)).toNat = op.toNat * 256 + n := Nat.mod_eq_of_lt (by omega)
  apply BitVec.eq_of_toNat_eq
  rw [opcode_append_toNat, hn, hword]

theorem assemble_command (m : Mnemonic) (os : List AsmOperand) :
    assemble (.command m os) =
      if (AsmLine.command m os).wf then some [m.build ((operandBytes os).headD 0x00)] else none := rfl

/-- A line that is not well formed is refused. -/
theorem assemble_eq_none {l : AsmLine} (h : l.wf = false) : assemble l = none :=
  if_neg (Bool.eq_false_iff.1 h)

section
variable {m : Mnemonic} {n : Nat}

/-- A format `I` line with one operand that stands for the number `n` and is no string: `n` below 256, and the
character printable where it is one. -/
theorem command_wf_iff_of_format_i (hformat : m.format = .i) {o : AsmOperand} (hval : o.values = [n])
    (hstr : o.isString = false) : (AsmLine.command m [o]).wf = true ↔ n < 256 ∧ o.charsOk = true := by
  simp [AsmLine.wf, operandCountOk, AsmOperand.inRange, hformat, hval, hstr]

/-- Such a line is the opcode followed by the number. -/
theorem assembledWords_of_format_i (hformat : m.format = .i) {o : AsmOperand} (hval : o.values = [n])
    (hwf : (AsmLine.command m [o]).wf = true) (hn : n < 256) :
    (assemble (.command m [o])).map (·.map encode) = some [BitVec.ofNat 16 (m.opcode.toNat * 256 + n)] := by
  have hbyte : (operandBytes [o]).headD 0x00 = BitVec.ofNat 8 n := by simp [operandBytes, hval]
  rw [assemble_command, if_pos hwf, hbyte, ← opcode_append_ofNat _ hn, ← encode_build_of_format_i hformat]
  rfl

/-- A number in decimal or hexadecimal. -/
theorem assemble_number (hformat : m.format = .i) {o : AsmOperand} (ho : o = .dec n ∨ o = .hex n) :
    (n < 256 →
      (assemble (.command m [o])).map (·.map encode) = some [BitVec.ofNat 16 (m.opcode.toNat * 256 + n)]) ∧
    (256 ≤ n → assemble (.command m [o]) = none) := by
  obtain ⟨hval, hchars, hstr⟩ : o.values = [n] ∧ o.charsOk = true ∧ o.isString = false := by
    rcases ho with rfl | rfl <;> exact ⟨rfl, rfl, rfl⟩
  have hwf := command_wf_iff_of_format_i hformat hval hstr
  refine ⟨fun hlt => assembledWords_of_format_i hformat hval (hwf.2 ⟨hlt, hchars⟩) hlt, fun hge => ?_⟩
  exact assemble_eq_none (Bool.eq_false_iff.2 fun h => absurd (hwf.1 h).1 (Nat.not_lt.2 hge))

theorem printableCode_iff : printableCode n = true ↔ 0x20 ≤ n ∧ n ≤ 0x7E := by
  simp [printableCode]

/-- A printable character stands for its code. -/
theorem assemble_printable (hformat : m.format = .i) (h : 0x20 ≤ n ∧ n ≤ 0x7E) :
    (assemble (.command m [.chr n])).map (·.map encode) = some [BitVec.ofNat 16 (m.opcode.toNat * 256 + n)] :=
  have hlt : n < 256 := lt_of_le_of_lt h.2 (by decide)
  have hwf := (command_wf_iff_of_format_i hformat (o := .chr n) rfl rfl).2 ⟨hlt, printableCode_iff.2 h⟩
  assembledWords_of_format_i hformat rfl hwf hlt

/-- Any other character is refused. -/
theorem assemble_notPrintable (hformat : m.format = .i) (h : n < 0x20 ∨ 0x7E < n) :
    assemble (.command m [.chr n]) = none := by
  refine assemble_eq_none (Bool.eq_false_iff.2 fun hwf => ?_)
  obtain ⟨-, hchars⟩ := (command_wf_iff_of_format_i hformat (o := .chr n) rfl rfl).1 hwf
  have hprintable := printableCode_iff.1 hchars
  omega

/-- A line with another number of operands than its format has is refused (rule R89). -/
theorem assemble_wrongCount {os : List AsmOperand} (h : operandCountOk m os = false) :
    assemble (.command m os) = none :=
  assemble_eq_none (by simp [AsmLine.wf, h])

/-- A format `N` line without operand is its opcode alone. -/
theorem assemble_noOperand (hformat : m.format = .n) :
    (assemble (.command m [])).map (·.map encode) = some [BitVec.ofNat 16 (m.opcode.toNat * 256)] := by
  have hwf : (AsmLine.command m []).wf = true := by simp [AsmLine.wf, operandCountOk, hformat]
  have hword : m.opcode ++ (0x00 : Byte) = BitVec.ofNat 16 (m.opcode.toNat * 256) := by
    rw [← Nat.add_zero (m.opcode.toNat * 256), ← opcode_append_ofNat m.opcode (by decide)]
    rfl
  rw [assemble_command, if_pos hwf, ← hword, ← encode_build_of_format_n hformat]
  rfl

end

/-! ### The text of a line -/

/-- A word that is read whole as a name: it starts with no quote, and no character in it ends a word. -/
def isNameWord (cs : List Char) : Bool :=
  wordToken cs == some (.name cs) && cs.all (!endsWord ·) && cs.head? != some '\'' && cs.head? != some '"'

theorem mnemonicName_isNameWord (m : Mnemonic) : isNameWord (mnemonicName m) = true := by
  cases m <;> decide

/-- The names of rule R87 are distinct: a mnemonic is found by its name. -/
theorem find?_mnemonicName (m : Mnemonic) :
    allMnemonics.find? (fun k => mnemonicName k == mnemonicName m) = some m := by
  cases m <;> rfl

/-- A comment ends the line (rule R89). -/
theorem tokens_comment (k : Nat) (cs : List Char) : tokens (k + 1) (';' :: cs) = some [] := rfl

/-- A space between parts is passed over. -/
theorem tokens_space (k : Nat) (cs : List Char) : tokens (k + 1) (' ' :: cs) = tokens k cs := rfl

/-- A character between single quotes that ends the line stands for its code, whatever the character. -/
theorem tokens_quoted (k : Nat) (c : Char) : tokens (k + 2) ['\'', c, '\''] = some [.operand (.chr c.toNat)] := rfl

/-- A name that a space follows is one token. -/
theorem tokens_name_space {name : List Char} (hname : isNameWord name = true) (k : Nat) (cs : List Char) :
    tokens (k + 1) (name ++ ' ' :: cs) = (tokens k (' ' :: cs)).map (.name name :: ·) := by
  simp only [isNameWord, Bool.and_eq_true, beq_iff_eq, bne_iff_ne, List.all_eq_true] at hname
  obtain ⟨⟨⟨htoken, hall⟩, hsingle⟩, hdouble⟩ := hname
  cases name with
  | nil => simp [wordToken] at htoken
  | cons c name =>
    have hrest : ∀ d ∈ name, (!endsWord d) = true := fun d hd => hall d (List.mem_cons_of_mem _ hd)
    have htake : (name ++ ' ' :: cs).takeWhile (!endsWord ·) = name := by
      rw [List.takeWhile_append_of_pos hrest]
      simp [endsWord]
    have hdrop : (name ++ ' ' :: cs).dropWhile (!endsWord ·) = ' ' :: cs := by
      rw [List.dropWhile_append_of_pos hrest]
      simp [endsWord]
    obtain ⟨hspace, hsemicolon⟩ : c ≠ ' ' ∧ c ≠ ';' := by simpa [endsWord] using hall c List.mem_cons_self
    obtain ⟨hs, hd⟩ : c ≠ '\'' ∧ c ≠ '"' := ⟨by simpa using hsingle, by simpa using hdouble⟩
    simp [tokens, hsemicolon, hspace, hs, hd, htake, hdrop, htoken]

/-- Tokens that are operands are read as these operands. -/
theorem operandsOf_map_operand (os : List AsmOperand) : operandsOf (os.map .operand) = some os := by
  induction os with
  | nil => rfl
  | cons o os ih => rw [List.map_cons, operandsOf, ih, Option.map_some]

/-- A line whose tokens are a mnemonic's name and operands is that command. -/
theorem parseLine_of_tokens {m : Mnemonic} {cs : List Char} {os : List AsmOperand}
    (h : tokens (cs.length + 1) cs = some (.name (mnemonicName m) :: os.map .operand)) :
    parseLine cs = some (.command m os) := by
  simp only [parseLine, h, operandsOf_map_operand, Option.bind_some, find?_mnemonicName]

/-- A line that is parsed as a command is assembled as that command. -/
theorem assembleText_of_parseLine {cs : List Char} {l : AsmLine} (h : parseLine cs = some l) :
    assembleText cs = (assemble l).map (·.map encode) := by
  rw [assembleText, h, Option.bind_some]

/-- The text of a mnemonic and a quoted character. -/
theorem parseLine_quoted (m : Mnemonic) (c : Char) :
    parseLine (mnemonicName m ++ [' ', '\'', c, '\'']) = some (.command m [.chr c.toNat]) := by
  refine parseLine_of_tokens ?_
  have hfuel : (mnemonicName m ++ [' ', '\'', c, '\'']).length + 1 = (mnemonicName m).length + 1 + 2 + 1 + 1 := by
    simp
  rw [hfuel, tokens_name_space (mnemonicName_isNameWord m), tokens_space, tokens_quoted]
  rfl

/-- The text of a mnemonic and a comment. -/
theorem parseLine_comment (m : Mnemonic) (cs : List Char) :
    parseLine (mnemonicName m ++ ' ' :: ';' :: cs) = some (.command m []) := by
  refine parseLine_of_tokens ?_
  have hfuel : (mnemonicName m ++ ' ' :: ';' :: cs).length + 1 = (mnemonicName m).length + cs.length + 1 + 1 + 1 := by
    simp [Nat.add_assoc]
  rw [hfuel, tokens_name_space (mnemonicName_isNameWord m), tokens_space, tokens_comment]
  rfl

/-! ### The statement -/

/-- Settles O6: the clauses on terms are the lemmas on `assemble`; those on text are parsed to such terms. -/
theorem assembledWordOfALine : Obligations.AssembledWordOfALine := by
  refine ⟨fun m n hformat => ?_, fun m os hformat hcount => ?_, fun m os hformat => ?_, fun m c hformat hc => ?_, rfl,
    fun m cs hformat => ?_⟩
  · obtain ⟨hdec, hdecRefused⟩ := assemble_number (n := n) hformat (.inl rfl)
    obtain ⟨hhex, hhexRefused⟩ := assemble_number (n := n) hformat (.inr rfl)
    exact ⟨fun hlt => ⟨hdec hlt, hhex hlt⟩, fun hge => ⟨hdecRefused hge, hhexRefused hge⟩,
      assemble_printable hformat, assemble_notPrintable hformat⟩
  · exact assemble_wrongCount (by simpa [operandCountOk, hformat] using hcount)
  · have hcount (hne : os ≠ []) : operandCountOk m os = false := by simpa [operandCountOk, hformat] using hne
    exact ⟨assemble_noOperand hformat, fun hne => assemble_wrongCount (hcount hne)⟩
  · rw [assembleText_of_parseLine (parseLine_quoted m c), assemble_printable hformat hc]
  · rw [assembleText_of_parseLine (parseLine_comment m cs), assemble_noOperand hformat]

end Sys2Proof.Machine
end

section
/-! PROOFS. `crc_bit` and `crc_step` (rules R100, R101), and the three equivalent forms (rule R104). Two facts carry all
of it: `crc_bit` is linear over exclusive or, and a register fed its own top bit only shifts. -/

namespace Sys2Proof.Machine

/-! ### `crc_bit` -/

/-- The polynomial has a 1 exactly at the three taps (rule R100). -/
theorem crcPoly_getLsbD {k : Nat} (hk : k < 16) :
    Config.crcPoly.getLsbD k = decide (k = 0 ∨ k = 5 ∨ k = 12) := by
  revert k
  decide

/-- A bit of `crc_bit`: the bit below it, and at a tap the feedback. -/
theorem crcBit_getLsbD (c : Word) (d : Bool) {k : Nat} (hk : k < 16) :
    (crcBit c d).getLsbD k =
      ((decide (0 < k) && c.getLsbD (k - 1)) ^^ (decide (k = 0 ∨ k = 5 ∨ k = 12) && (c.getLsbD 15 ^^ d))) := by
  have hshift : (c <<< 1).getLsbD k = (decide (0 < k) && c.getLsbD (k - 1)) := by
    rw [BitVec.getLsbD_shiftLeft]
    by_cases hpos : 0 < k
    · simp [hk, hpos, show ¬k < 1 by omega]
    · simp [show k = 0 by omega]
  unfold crcBit
  cases hfb : c.getLsbD 15 ^^ d with
  | false => simp [hshift]
  | true => simp [hshift, crcPoly_getLsbD hk]

/-- Settles O15: the statement is `crcBit_getLsbD`. -/
theorem crcBitIsAShiftWithThreeTaps : Obligations.CrcBitIsAShiftWithThreeTaps :=
  fun c d _ hk => crcBit_getLsbD c d hk

/-- `crc_bit` is linear over exclusive or, since each of its bits is. -/
theorem crcBit_xor (c c' : Word) (d d' : Bool) : crcBit (c ^^^ c') (d ^^ d') = crcBit c d ^^^ crcBit c' d' := by
  refine BitVec.eq_of_getLsbD_eq fun k hk => ?_
  simp only [BitVec.getLsbD_xor, crcBit_getLsbD _ _ hk, Bool.and_xor_distrib_left]
  simp only [Bool.xor_assoc, Bool.xor_left_comm]

/-- A register fed its own top bit only shifts: the feedback is 0. -/
theorem crcBit_topBit (c : Word) : crcBit c (c.getLsbD 15) = c <<< 1 := by
  simp [crcBit]

/-- `crcBit_topBit` for a register that `n` shifts have already moved. -/
theorem crcBit_shiftLeft (c : Word) {n : Nat} (hn : n < 16) :
    crcBit (c <<< n) (c.getLsbD (15 - n)) = c <<< (n + 1) := by
  have htop : (c <<< n).getLsbD 15 = c.getLsbD (15 - n) := by
    rw [BitVec.getLsbD_shiftLeft]
    simp only [show 15 < 16 by decide, show ¬15 < n by omega, decide_true, decide_false, Bool.not_false, Bool.true_and]
  rw [← htop, crcBit_topBit, BitVec.shiftLeft_add]

/-! ### `crc_step` -/

/-- `crc_step` is linear over exclusive or, as each of its eight rounds is. -/
theorem crcStep_xor (c c' : Word) (b b' : Byte) : crcStep (c ^^^ c') (b ^^^ b') = crcStep c b ^^^ crcStep c' b' := by
  simp only [crcStep, List.foldl, BitVec.getLsbD_xor, crcBit_xor]

/-- The bits of the high byte are bits 8 to 15 (rule R52). -/
theorem highByte_getLsbD (c : Word) {k : Nat} (hk : k < 8) : (highByte c).getLsbD k = c.getLsbD (8 + k) := by
  simp [highByte, hk]

/-- A register fed its own high byte only shifts, by `crcBit_shiftLeft` in each round. -/
theorem crcStep_highByte (c : Word) : crcStep c (highByte c) = c <<< 8 := by
  have hround (n : Nat) (hn : n < 8) :
      crcBit (c <<< n) ((highByte c).getLsbD (7 - n)) = c <<< (n + 1) := by
    rw [highByte_getLsbD c (by omega), show 8 + (7 - n) = 15 - n by omega, crcBit_shiftLeft c (by omega)]
  have hstart : crcBit c ((highByte c).getLsbD 7) = c <<< 1 := by
    simpa using hround 0 (by decide)
  simp only [crcStep, List.foldl, hstart]
  rw [hround 1 (by decide), hround 2 (by decide), hround 3 (by decide), hround 4 (by decide), hround 5 (by decide),
    hround 6 (by decide), hround 7 (by decide)]

/-- `crc_step` depends on the byte through its exclusive or with the register's high byte: the register shifts, and a
register at 0 takes that byte. -/
theorem crcStep_eq_shift_xor (c : Word) (b : Byte) : crcStep c b = c <<< 8 ^^^ crcStep 0 (highByte c ^^^ b) := by
  calc crcStep c b
      _ = crcStep (c ^^^ 0) (highByte c ^^^ (highByte c ^^^ b)) := by
        rw [← BitVec.xor_assoc, BitVec.xor_self, BitVec.zero_xor, BitVec.ofNat_eq_ofNat, BitVec.xor_zero]
      _ = c <<< 8 ^^^ crcStep 0 (highByte c ^^^ b) := by rw [crcStep_xor, crcStep_highByte]

/-! ### The three forms -/

/-- A round of form (a) is `crc_bit` with input 0. -/
theorem crcShift_eq_crcBit (t : Word) : crcShift t = crcBit t false := by
  simp [crcShift, crcBit]

/-- Form (a) feeds the byte into the register and then steps with byte 0. -/
theorem crcStepXorFirst_eq_crcStep_zero (c : Word) (b : Byte) :
    crcStepXorFirst c b = crcStep (c ^^^ (b.zeroExtend 16 <<< 8)) 0 := by
  simp only [crcStepXorFirst, crcStep, List.foldl, crcShift_eq_crcBit, BitVec.ofNat_eq_ofNat, BitVec.getLsbD_zero]

/-- A byte moved to the top of a register is its high byte. -/
theorem highByte_zeroExtend_shiftLeft (b : Byte) : highByte (b.zeroExtend 16 <<< 8) = b := by
  refine BitVec.eq_of_getLsbD_eq fun k hk => ?_
  rw [highByte_getLsbD _ hk]
  simp [show 8 + k < 16 by omega]

/-- A byte moved past the top of a register is gone. -/
theorem zeroExtend_shiftLeft_shiftLeft (b : Byte) : (b.zeroExtend 16 <<< 8) <<< 8 = (0 : Word) := by
  rw [← BitVec.shiftLeft_add, BitVec.shiftLeft_eq_zero (by decide)]
  rfl

/-- Form (a) computes `crc_step`: the byte in the register and the byte as input differ by a register fed its own high
byte, which shifts out. -/
theorem crcStepXorFirst_eq (c : Word) (b : Byte) : crcStepXorFirst c b = crcStep c b := by
  have hout : crcStep (b.zeroExtend 16 <<< 8) b = 0 := by
    have hshift := crcStep_highByte (b.zeroExtend 16 <<< 8)
    rwa [highByte_zeroExtend_shiftLeft, zeroExtend_shiftLeft_shiftLeft] at hshift
  calc crcStepXorFirst c b
      _ = crcStep (c ^^^ (b.zeroExtend 16 <<< 8)) 0 := crcStepXorFirst_eq_crcStep_zero c b
      _ = crcStep (c ^^^ (b.zeroExtend 16 <<< 8)) (b ^^^ b) := by rw [BitVec.xor_self, BitVec.ofNat_eq_ofNat]
      _ = crcStep c b ^^^ crcStep (b.zeroExtend 16 <<< 8) b := crcStep_xor ..
      _ = crcStep c b := by rw [hout, BitVec.ofNat_eq_ofNat, BitVec.xor_zero]

/-- The table lists `crc_step` from 0 (rule R104). -/
theorem crcTable_eq : crcTable = (List.range 256).map fun i => crcStep 0 (BitVec.ofNat 8 i) := by
  decide +kernel

theorem crcTable_getD (b : Byte) : crcTable.getD b.toNat 0 = crcStep 0 b := by
  simp [crcTable_eq, b.isLt]

/-- Form (b) computes `crc_step`: it is `crcStep_eq_shift_xor` with the second part looked up. -/
theorem crcStepTable_eq (c : Word) (b : Byte) : crcStepTable c b = crcStep c b := by
  rw [crcStepTable, crcTable_getD, ← crcStep_eq_shift_xor]

/-- The network too shifts the register, and a register at 0 takes the rest: its equations, bit by bit. -/
theorem crcStepNetwork_eq_shift_xor (c : Word) (b : Byte) :
    crcStepNetwork c b = c <<< 8 ^^^ crcStepNetwork 0 (highByte c ^^^ b) := by
  refine BitVec.eq_of_getLsbD_eq fun k hk => ?_
  interval_cases k <;>
    simp only [crcStepNetwork, BitVec.append_ofBool, BitVec.getLsbD_concat_zero, BitVec.getLsbD_concat_succ,
      BitVec.getLsbD_xor, BitVec.getLsbD_shiftLeft] <;>
    grind [highByte_getLsbD]

/-- From a register at 0 the network computes `crc_step`, byte by byte. -/
theorem crcStepNetwork_zero (b : Byte) : crcStepNetwork 0 b = crcStep 0 b := by
  revert b
  decide +kernel

/-- Form (c) computes `crc_step`. -/
theorem crcStepNetwork_eq (c : Word) (b : Byte) : crcStepNetwork c b = crcStep c b := by
  rw [crcStepNetwork_eq_shift_xor, crcStepNetwork_zero, ← crcStep_eq_shift_xor]

/-- Settles O16, form by form. -/
theorem equivalentCrcFormsAgree : Obligations.EquivalentCrcFormsAgree :=
  fun c b => ⟨crcStepXorFirst_eq c b, crcStepTable_eq c b, crcStepNetwork_eq c b⟩

end Sys2Proof.Machine
end

section
/-! PROOFS. The commands of the CRC generator (rules R105 to R107) and streams of them (rules R102, R108 law 1). -/

namespace Sys2Proof.Machine

theorem exec_crcinit (s : State) : exec .crcinit s = .next (respond .ok 0 { s with crc := 0 }) := rfl

theorem exec_crcbyte (b : Byte) (s : State) :
    exec (.crcbyte b) s = .next (respond .ok 0 { s with crc := crcStep s.crc b }) := rfl

theorem exec_rdcrc (s : State) : exec .rdcrc s = .next (respond .ok s.crc s) := rfl

/-- Settles O14: the three words are the encoder's, and each command does what its lemma says. -/
theorem crcGeneratorResults : Obligations.CrcGeneratorResults :=
  ⟨decode_eq_ok_iff.2 rfl, fun _ => decode_eq_ok_iff.2 rfl, decode_eq_ok_iff.2 rfl,
    fun s b => ⟨exec_crcinit s, exec_crcbyte b s, exec_rdcrc s⟩⟩

/-- A `CRCBYTE` for each byte feeds the bytes to the register and goes on; where there was a byte, the last answer is
`(OK, 0x0000)`. -/
theorem execAll_crcbytes_append (x : List Byte) (is : List Instr) (s : State) :
    execAll (x.map Instr.crcbyte ++ is) s =
      execAll is { s with crc := crcFeed s.crc x, resp := if x = [] then s.resp else some ⟨.ok, 0x0000⟩ } := by
  induction x generalizing s with
  | nil => rfl
  | cons b x ih =>
    rw [List.map_cons, List.cons_append, execAll_cons_of_next (exec_crcbyte b s), ih, respond_resp, ite_self,
      if_neg (List.cons_ne_nil b x)]
    rfl

/-- The checksum of two pieces feeds the second to the checksum of the first (rule R108 law 1). -/
theorem crc16_append (x y : List Byte) : crc16 (x ++ y) = crcFeed (crc16 x) y :=
  List.foldl_append

/-- `CRCINIT` and a stream of bytes: the register holds the checksum of the bytes, and the sequence goes on. -/
theorem execAll_crcinit_crcbytes_append (x : List Byte) (is : List Instr) (s : State) :
    execAll (.crcinit :: (x.map Instr.crcbyte ++ is)) s =
      execAll is { s with crc := crc16 x, resp := some ⟨.ok, 0x0000⟩ } := by
  rw [execAll_cons_of_next (exec_crcinit s), execAll_crcbytes_append, respond_resp, ite_self]
  rfl

/-- A stream of bytes and `RDCRC`: the answer is what the register then holds, with or without bytes. -/
theorem execAll_crcbytes_rdcrc (x : List Byte) (is : List Instr) (s : State) :
    execAll (x.map Instr.crcbyte ++ .rdcrc :: is) s =
      execAll is { s with crc := crcFeed s.crc x, resp := some ⟨.ok, crcFeed s.crc x⟩ } := by
  rw [execAll_crcbytes_append, execAll_cons_of_next (exec_rdcrc _)]
  rfl

/-- Settles O17: the first piece starts at `CRC_INIT`, and the second goes on from the checksum of the first. -/
theorem crcStreamComputesTheChecksum : Obligations.CrcStreamComputesTheChecksum := by
  refine fun s x y => ⟨?_, ?_⟩
  · simpa [execAll] using execAll_crcinit_crcbytes_append x [] s
  · calc execAll ([.crcinit] ++ x.map Instr.crcbyte ++ [.rdcrc] ++ y.map Instr.crcbyte ++ [.rdcrc]) s
        _ = execAll (.crcinit :: (x.map Instr.crcbyte ++ .rdcrc :: (y.map Instr.crcbyte ++ [.rdcrc]))) s := by
          simp only [List.append_assoc, List.cons_append, List.nil_append]
        _ = execAll (.rdcrc :: (y.map Instr.crcbyte ++ [.rdcrc]))
              { s with crc := crc16 x, resp := some ⟨.ok, 0x0000⟩ } := execAll_crcinit_crcbytes_append ..
        _ = execAll (y.map Instr.crcbyte ++ [.rdcrc]) { s with crc := crc16 x, resp := some ⟨.ok, crc16 x⟩ } :=
          execAll_cons_of_next (exec_rdcrc _) _
        _ = .next { s with crc := crcFeed (crc16 x) y, resp := some ⟨.ok, crcFeed (crc16 x) y⟩ } :=
          execAll_crcbytes_rdcrc y [] _
        _ = .next { s with crc := crc16 (x ++ y), resp := some ⟨.ok, crc16 (x ++ y)⟩ } := by rw [crc16_append]

end Sys2Proof.Machine
end

section
/-! PROOFS. The frame field and payload commands (rules R120 to R133): for each, once, what it answers in each case of
its rule. What a checked operand does, and a read behind one, stands first, for any operand and either store. -/

namespace Sys2Proof.Machine

/-! ### Checked operands, and the byte behind a checked index -/

/-- Failure entry writes what `State.afterFailure` says, for the code's own number (rules R201, R207). -/
theorem takeFailure_eq_afterFailure (c : Code) (s : State) : takeFailure c s = s.afterFailure c (codeBits c) := rfl

/-- An operand that is out of range ends the command as `BadOperand`, code 10. -/
theorem orBadOperand_of_eq_none {α : Type} {r : Option α} (h : r = none) (s : State) (k : α → Result) :
    orBadOperand r s k = .next (s.afterFailure .badOperand 10) := by
  rw [h, orBadOperand_none, takeFailure_eq_afterFailure]
  rfl

/-- An operand that is in range is what the command goes on with. -/
theorem orBadOperand_of_eq_some {α : Type} {r : Option α} {a : α} (h : r = some a) (s : State) (k : α → Result) :
    orBadOperand r s k = k a := by
  rw [h, orBadOperand_some]

/-- A register or byte read out is answered as its number (rules R11, R86). -/
theorem answer_zext16 {n : Nat} (v : BitVec n) (s : State) :
    answer (zext16 v) s = .next (respond .ok (BitVec.ofNat 16 v.toNat) s) := by
  rw [answer_eq, zext16_eq]

/-- A read behind a checked index that the store has and that holds a byte (rules R131, R153, R154). -/
theorem indexedRead_of_eq_some {idx : Option Nat} {st : Store} {i : Nat} {b : Byte} {s : State} (hidx : idx = some i)
    (hi : i < storeSize st) (hb : (storeOf st s).read i = some b) :
    orBadOperand idx s (fun k => orFault (readByte st k s) fun b => answer (zext16 b) s) =
      .next (respond .ok (BitVec.ofNat 16 b.toNat) s) := by
  rw [orBadOperand_of_eq_some hidx, readByte_eq_ok hi hb, orFault_ok, answer_zext16]

/-! ### The setters -/

/-- `SETVER` in range (rule R120). -/
theorem exec_setver_of_lt {b : Byte} (h : b.toNat < 4) (s : State) :
    exec (.setver b) s = .next (respond .ok 0 { s with ver := BitVec.ofNat 2 b.toNat }) :=
  orBadOperand_of_eq_some ((versionOperand_eq b).trans (if_pos h)) s _

/-- `SETVER` out of range (rule R120). -/
theorem exec_setver_of_ge {b : Byte} (h : 4 ≤ b.toNat) (s : State) :
    exec (.setver b) s = .next (s.afterFailure .badOperand 10) :=
  orBadOperand_of_eq_none ((versionOperand_eq b).trans (if_neg (Nat.not_lt.2 h))) s _

/-- `SETFLG` in range (rule R121). -/
theorem exec_setflg_of_lt {b : Byte} (h : b.toNat < 64) (s : State) :
    exec (.setflg b) s = .next (respond .ok 0 { s with flg := BitVec.ofNat 6 b.toNat }) :=
  orBadOperand_of_eq_some ((flagsOperand_eq b).trans (if_pos h)) s _

/-- `SETFLG` out of range (rule R121). -/
theorem exec_setflg_of_ge {b : Byte} (h : 64 ≤ b.toNat) (s : State) :
    exec (.setflg b) s = .next (s.afterFailure .badOperand 10) :=
  orBadOperand_of_eq_none ((flagsOperand_eq b).trans (if_neg (Nat.not_lt.2 h))) s _

/-- Settles O26: each setter on either side of its bound, which is where the operand check decides. -/
theorem setverSetflgResults : Obligations.SetverSetflgResults :=
  fun s _ => ⟨decode_eq_ok_iff.2 rfl, decode_eq_ok_iff.2 rfl, fun h => exec_setver_of_lt h s,
    fun h => exec_setver_of_ge h s, fun h => exec_setflg_of_lt h s, fun h => exec_setflg_of_ge h s⟩

/-- The version of a header byte, as the quotient by 64 (rule R71). -/
theorem b0Version_eq (b : Byte) : b0Version b = BitVec.ofNat 2 (b.toNat / 64) := by
  rw [← b0Version_toNat, BitVec.ofNat_toNat, BitVec.setWidth_eq]

/-- The flags of a header byte, as the remainder by 64 (rule R71). -/
theorem b0Flags_eq (b : Byte) : b0Flags b = BitVec.ofNat 6 (b.toNat % 64) := by
  rw [← b0Flags_toNat, BitVec.ofNat_toNat, BitVec.setWidth_eq]

/-- `SETID` (rule R122). -/
theorem exec_setid (b : Byte) (s : State) : exec (.setid b) s = .next (respond .ok 0 { s with txid := b }) := rfl

/-- `SETB0` unpacks its operand as a header byte (rule R123). -/
theorem exec_setb0 (b : Byte) (s : State) :
    exec (.setb0 b) s = .next (respond .ok 0
      { s with ver := BitVec.ofNat 2 (b.toNat / 64), flg := BitVec.ofNat 6 (b.toNat % 64) }) := by
  rw [← b0Version_eq, ← b0Flags_eq]
  rfl

/-- Settles O27: `PLCLR` clears the fill level of the store `PL` and keeps its contents. -/
theorem setidSetb0PlclrResults : Obligations.SetidSetb0PlclrResults :=
  fun s b => ⟨decode_eq_ok_iff.2 rfl, decode_eq_ok_iff.2 rfl, decode_eq_ok_iff.2 rfl, exec_setid b s, exec_setb0 b s,
    exec_clearCommand .pl s⟩

/-! ### The payload -/

/-- `PLPUSH` on a full store (rule R125). -/
theorem execPlpush_of_full {s : State} (b : Byte) (h : s.len.toNat = 255) :
    execPlpush b s = .next (s.afterFailure .bufferFull 11) := by
  rw [execPlpush, if_pos h, fail_eq, takeFailure_eq_afterFailure]
  rfl

/-- A register counted up by one holds the next number, modulo its range. -/
theorem ofNat_toNat_succ {n : Nat} (x : BitVec n) : BitVec.ofNat n (x.toNat + 1) = x + 1#n := by
  rw [BitVec.ofNat_add, BitVec.ofNat_toNat, BitVec.setWidth_eq]

/-- Settles O28: below 255 the new contents are the old with the operand written at the old `LEN`; at 255 the store is
full. -/
theorem plpushResult : Obligations.PlpushResult := by
  refine fun s b => ⟨decode_eq_ok_iff.2 rfl, fun hlt => ⟨s.pl.write s.len.toNat b, ?_, ?_, ?_⟩, execPlpush_of_full b⟩
  · rw [ofNat_toNat_succ]
    exact execPlpush_of_lt b hlt
  · exact memory_read_write_same ..
  · exact fun i hi => memory_read_write_other s.pl b hi

/-- `RDPL` below `LEN`, which the width of `LEN` keeps inside the store (rule R131). -/
theorem exec_rdpl_of_lt {s : State} {k b : Byte} (hlt : k.toNat < s.len.toNat) (hb : s.pl.read k.toNat = some b) :
    exec (.rdpl k) s = .next (respond .ok (BitVec.ofNat 16 b.toNat) s) := by
  have hsize : k.toNat < 255 := lt_of_lt_of_le hlt (Nat.le_of_lt_succ s.len.isLt)
  exact indexedRead_of_eq_some (st := .pl) (payloadIndex_eq_some_iff.2 ⟨rfl, hlt⟩) hsize hb

/-- `RDPL` at or above `LEN` (rule R131). -/
theorem exec_rdpl_of_ge {s : State} {k : Byte} (hge : s.len.toNat ≤ k.toNat) :
    exec (.rdpl k) s = .next (s.afterFailure .badOperand 10) := by
  have hnone : payloadIndex k s = none := if_neg (Nat.not_lt.2 hge)
  exact orBadOperand_of_eq_none hnone s _

/-- Settles O30: `RDPL` on either side of `LEN`. -/
theorem rdplResult : Obligations.RdplResult :=
  fun _ _ => ⟨decode_eq_ok_iff.2 rfl, fun _ hlt hb => exec_rdpl_of_lt hlt hb, fun hge => exec_rdpl_of_ge hge⟩

/-! ### The field reads -/

/-- `RDB0` answers the packed header byte as a number (rules R71, R133). -/
theorem exec_rdb0 (s : State) :
    exec .rdb0 s = .next (respond .ok (BitVec.ofNat 16 (s.ver.toNat * 64 + s.flg.toNat)) s) := by
  rw [← packB0_toNat]
  exact answer_zext16 (packB0 s.ver s.flg) s

/-- Settles O29: each read answers its register's number; `CSUM` has 16 bits already, and byte 0 is packed first. -/
theorem fieldReadResults : Obligations.FieldReadResults :=
  ⟨decode_eq_ok_iff.2 rfl, decode_eq_ok_iff.2 rfl, decode_eq_ok_iff.2 rfl, decode_eq_ok_iff.2 rfl,
    decode_eq_ok_iff.2 rfl, decode_eq_ok_iff.2 rfl, decode_eq_ok_iff.2 rfl,
    fun s => ⟨answer_zext16 s.ver s, answer_zext16 s.flg s, answer_zext16 s.txid s, answer_zext16 s.len s,
      answer_eq s.csum s, answer_zext16 (fclass s.flg) s, exec_rdb0 s⟩⟩

end Sys2Proof.Machine
end

section
/-! PROOFS. The wire buffer commands (rules R150 to R154): for each, once, what it answers in each case of its rule. -/

namespace Sys2Proof.Machine

/-! ### Clearing and counting -/

/-- `RDCNT` answers the fill level as a number (rule R152). -/
theorem exec_rdcnt (s : State) : exec .rdcnt s = .next (respond .ok (BitVec.ofNat 16 s.cnt.toNat) s) :=
  answer_zext16 s.cnt s

/-- Settles O31: `BUFCLR` clears the fill level of the store `BUF` and keeps its contents. -/
theorem bufclrRdcntResults : Obligations.BufclrRdcntResults :=
  ⟨decode_eq_ok_iff.2 rfl, decode_eq_ok_iff.2 rfl, fun s => ⟨exec_clearCommand .buf s, exec_rdcnt s⟩⟩

/-! ### The push -/

/-- `BUFPUSH` on a full store (rule R151). -/
theorem execBufpush_of_full {s : State} (b : Byte) (h : s.cnt.toNat = 260) :
    execBufpush b s = .next (s.afterFailure .bufferFull 11) := by
  rw [execBufpush, if_pos h, fail_eq, takeFailure_eq_afterFailure]
  rfl

/-- Settles O32: below 260 the new contents are the old with the operand written at the old `CNT`; at 260 the store is
full. -/
theorem bufpushResult : Obligations.BufpushResult := by
  refine fun s b => ⟨decode_eq_ok_iff.2 rfl, fun hlt => ⟨s.buf.write s.cnt.toNat b, ?_, ?_, ?_⟩, execBufpush_of_full b⟩
  · rw [ofNat_toNat_succ]
    exact execBufpush_of_lt b hlt
  · exact memory_read_write_same ..
  · exact fun i hi => memory_read_write_other s.buf b hi

/-! ### The indexed reads -/

/-- `RDBUF` below `CNT`; the width of its operand keeps the index inside the store (rule R153). -/
theorem exec_rdbuf_of_lt {s : State} {k b : Byte} (hlt : k.toNat < s.cnt.toNat) (hb : s.buf.read k.toNat = some b) :
    exec (.rdbuf k) s = .next (respond .ok (BitVec.ofNat 16 b.toNat) s) := by
  have hsize : k.toNat < 260 := lt_trans k.isLt (by decide)
  exact indexedRead_of_eq_some (st := .buf) (bufferIndex_eq_some_iff.2 ⟨rfl, hlt⟩) hsize hb

/-- `RDBUF` at or above `CNT` (rule R153). -/
theorem exec_rdbuf_of_ge {s : State} {k : Byte} (hge : s.cnt.toNat ≤ k.toNat) :
    exec (.rdbuf k) s = .next (s.afterFailure .badOperand 10) := by
  have hnone : bufferIndex k s = none := if_neg (Nat.not_lt.2 hge)
  exact orBadOperand_of_eq_none hnone s _

/-- `RDBUFH` below `CNT`; its bound of 3 on the operand keeps the index inside the store (rule R154). -/
theorem exec_rdbufh_of_lt {s : State} {k b : Byte} (hk : k.toNat ≤ 3) (hlt : 256 + k.toNat < s.cnt.toNat)
    (hb : s.buf.read (256 + k.toNat) = some b) :
    exec (.rdbufh k) s = .next (respond .ok (BitVec.ofNat 16 b.toNat) s) := by
  have hsize : 256 + k.toNat < 260 := Nat.add_lt_add_left (Nat.lt_succ_of_le hk) 256
  exact indexedRead_of_eq_some (st := .buf) (bufferIndexHigh_eq_some_iff.2 ⟨rfl, hk, hlt⟩) hsize hb

/-- `RDBUFH` with an operand above 3 or an index at or above `CNT` (rule R154). -/
theorem exec_rdbufh_of_ge {s : State} {k : Byte} (h : 3 < k.toNat ∨ s.cnt.toNat ≤ 256 + k.toNat) :
    exec (.rdbufh k) s = .next (s.afterFailure .badOperand 10) := by
  have hnone : bufferIndexHigh k s = none := by
    refine Option.eq_none_iff_forall_ne_some.2 fun i hi => ?_
    obtain ⟨-, hk, hlt⟩ := bufferIndexHigh_eq_some_iff.1 hi
    omega
  exact orBadOperand_of_eq_none hnone s _

/-- Settles O33: each read on either side of its bounds. -/
theorem rdbufRdbufhResults : Obligations.RdbufRdbufhResults :=
  fun _ _ => ⟨decode_eq_ok_iff.2 rfl, decode_eq_ok_iff.2 rfl, fun _ hlt hb => exec_rdbuf_of_lt hlt hb,
    fun hge => exec_rdbuf_of_ge hge, fun _ hk hlt hb => exec_rdbufh_of_lt hk hlt hb, fun h => exec_rdbufh_of_ge h⟩

end Sys2Proof.Machine
end

section
/-! PROOFS. The checksum sees a changed byte (rule R108 laws 4 and 5): a step loses neither the accumulator nor the
byte, so checksums of sequences that differ in one byte stay apart to the end. -/

namespace Sys2Proof.Machine

/-- A step of one bit loses nothing of the accumulator: bit 0 of the result gives the feedback, so bit 15, and bit
`k + 1` with it gives bit `k` (rule R108 law 4). -/
theorem crcBit_left_injective (d : Bool) : Function.Injective (crcBit · d) := by
  intro c c' h
  have hbit {k : Nat} (hk : k < 16) :
      ((decide (0 < k) && c.getLsbD (k - 1)) ^^ (decide (k = 0 ∨ k = 5 ∨ k = 12) && (c.getLsbD 15 ^^ d))) =
        ((decide (0 < k) && c'.getLsbD (k - 1)) ^^ (decide (k = 0 ∨ k = 5 ∨ k = 12) && (c'.getLsbD 15 ^^ d))) := by
    rw [← crcBit_getLsbD c d hk, ← crcBit_getLsbD c' d hk]
    exact congrArg (·.getLsbD k) h
  have htop : c.getLsbD 15 = c'.getLsbD 15 := by
    simpa using hbit (k := 0) (by decide)
  refine BitVec.eq_of_getLsbD_eq fun k hk => ?_
  rcases (show k = 15 ∨ k + 1 < 16 by omega) with rfl | hk
  · exact htop
  · have hnext := hbit hk
    rw [htop] at hnext
    simpa using hnext

/-- A step of one byte loses nothing of the accumulator, as none of its eight rounds does (rule R108 law 4). -/
theorem crcStep_left_injective (b : Byte) : Function.Injective (crcStep · b) := by
  intro c c' h
  simp only [crcStep, List.foldl] at h
  exact (crcBit_left_injective _ <| crcBit_left_injective _ <| crcBit_left_injective _ <| crcBit_left_injective _ <|
    crcBit_left_injective _ <| crcBit_left_injective _ <| crcBit_left_injective _ <| crcBit_left_injective _ h)

/-- A step of one byte loses nothing of the byte: form (a) of rule R104 puts it in the accumulator. -/
theorem crcStep_right_injective (c : Word) : Function.Injective (crcStep c) := by
  intro b b' h
  rw [← crcStepXorFirst_eq, ← crcStepXorFirst_eq, crcStepXorFirst_eq_crcStep_zero,
    crcStepXorFirst_eq_crcStep_zero] at h
  have hshift : b.zeroExtend 16 <<< 8 = b'.zeroExtend 16 <<< 8 :=
    BitVec.xor_right_inj c |>.1 (crcStep_left_injective 0 h)
  rw [← highByte_zeroExtend_shiftLeft b, hshift, highByte_zeroExtend_shiftLeft]

/-- The bytes fed keep two accumulators apart. -/
theorem crcFeed_left_injective (m : List Byte) : Function.Injective (crcFeed · m) := by
  induction m with
  | nil => exact fun _ _ h => h
  | cons b m ih => exact fun _ _ h => crcStep_left_injective b (ih h)

/-- Two sequences that differ in at most one byte have the same checksum only if that byte is the same. -/
theorem byte_eq_of_crc16_eq {x y : List Byte} {b b' : Byte} (h : crc16 (x ++ b :: y) = crc16 (x ++ b' :: y)) :
    b = b' := by
  rw [crc16_append, crc16_append] at h
  exact crcStep_right_injective _ (crcFeed_left_injective y h)

/-! ### One flipped bit -/

/-- Inverting a bit of a byte changes the byte. -/
theorem xor_bit_ne {w : Nat} (b : BitVec w) {k : Nat} (hk : k < w) : b ^^^ (1#w <<< k) ≠ b := by
  intro h
  have hbit := congrArg (·.getLsbD k) h
  simp [hk] at hbit

@[simp] theorem flipBit_length (m : List Byte) (j k : Nat) : (flipBit m j k).length = m.length := List.length_set

/-- A flipped bit of the first of two parts. -/
theorem flipBit_append_left {x : List Byte} (y : List Byte) {j : Nat} (k : Nat) (h : j < x.length) :
    flipBit (x ++ y) j k = flipBit x j k ++ y := by
  rw [flipBit, List.set_append_left _ _ h, List.getD_append _ _ _ _ h, flipBit]

/-- A flipped bit of the second of two parts. -/
theorem flipBit_append_right {x : List Byte} (y : List Byte) {j : Nat} (k : Nat) (h : x.length ≤ j) :
    flipBit (x ++ y) j k = x ++ flipBit y (j - x.length) k := by
  rw [flipBit, List.set_append_right _ _ h, List.getD_append_right _ _ _ _ h, flipBit]

/-- One flipped bit always changes the checksum (rule R108 law 5). -/
theorem crc16_flipBit_ne {m : List Byte} {j k : Nat} (hj : j < m.length) (hk : k < 8) :
    crc16 (flipBit m j k) ≠ crc16 m := by
  intro h
  have hm : m = m.take j ++ m[j] :: m.drop (j + 1) := by
    rw [← List.drop_eq_getElem_cons hj, List.take_append_drop]
  have hflip : flipBit m j k = m.take j ++ (m[j] ^^^ (1#8 <<< k)) :: m.drop (j + 1) := by
    rw [flipBit, List.set_eq_take_append_cons_drop, if_pos hj, List.getD_eq_getElem _ _ hj]
  rw [hflip] at h
  exact xor_bit_ne m[j] hk (byte_eq_of_crc16_eq (h.trans (congrArg crc16 hm)))

end Sys2Proof.Machine
end

section
/-! PROOFS. `ENCODE` (rule R160): the one state it answers, and what that state holds. -/

namespace Sys2Proof.Machine

/-- Three header bytes and the payload. -/
@[simp] theorem wireBody_length (v : Version) (f : Flags) (id : Byte) (p : List Byte) :
    (wireBody v f id p).length = 3 + p.length := by
  simp only [wireBody, List.length_append, List.length_cons, List.length_nil]

/-- The wire image of a frame: header, payload and trailer (rule R70). -/
theorem wireImage_wireBody_length (v : Version) (f : Flags) (id : Byte) (p : List Byte) :
    (wireImage (wireBody v f id p)).length = 5 + p.length := by
  rw [wireImage_length, wireBody_length]
  omega

/-- A payload that fills `LEN` bytes is one of at most 255. -/
theorem holdsPayload_length_le {s : State} {p : List Byte} (h : s.HoldsPayload p) : p.length ≤ 255 := by
  have hlen := s.len.isLt
  have hp := h.1
  omega

/-- What `ENCODE` does (rule R160), for the payload read. -/
def encoded (p : List Byte) (s : State) : State :=
  { s with
    buf := s.buf.writeAll 0 (wireImage (wireBody s.ver s.flg s.txid p)), cnt := BitVec.ofNat 9 (5 + s.len.toNat),
    csum := crc16 (wireBody s.ver s.flg s.txid p), resp := some ⟨.ok, 0x0000⟩ }

@[simp] theorem encoded_ver (p : List Byte) (s : State) : (encoded p s).ver = s.ver := rfl
@[simp] theorem encoded_flg (p : List Byte) (s : State) : (encoded p s).flg = s.flg := rfl
@[simp] theorem encoded_txid (p : List Byte) (s : State) : (encoded p s).txid = s.txid := rfl
@[simp] theorem encoded_len (p : List Byte) (s : State) : (encoded p s).len = s.len := rfl
@[simp] theorem encoded_csum (p : List Byte) (s : State) :
    (encoded p s).csum = crc16 (wireBody s.ver s.flg s.txid p) := by
  rw [encoded]
@[simp] theorem encoded_cnt (p : List Byte) (s : State) :
    (encoded p s).cnt = BitVec.ofNat 9 (5 + s.len.toNat) := rfl
@[simp] theorem encoded_resp (p : List Byte) (s : State) : (encoded p s).resp = some ⟨.ok, 0x0000⟩ := rfl

section
variable {s : State} {p : List Byte} (h : s.HoldsPayload p)
include h

/-- `ENCODE` reads the payload and writes its wire image, which fits the buffer. -/
theorem exec_encode : exec .encode s = .next (encoded p s) := by
  have hp := holdsPayload_length_le h
  obtain ⟨hlen, hholds⟩ := h
  have hread : readBytes .pl 0 s.len.toNat s = .ok p := hlen ▸ readBytes_eq_ok (st := .pl) hp hholds
  have hfits : 0 + (wireImage (wireBody s.ver s.flg s.txid p)).length ≤ storeSize .buf := by
    rw [wireImage_wireBody_length, storeSize_buf]
    omega
  show execEncode s = _
  simp only [execEncode, hread, orFault_ok, body_append_trailer, frameBody_eq_wireBody _ _ _ hlen,
    writeBytes_eq_ok _ s hfits, done_eq, respond, setStore, storeOf, encoded, Config.minFrameBytes]

/-- After `ENCODE` the valid bytes of `BUF` are exactly the wire image. -/
theorem encoded_holdsWire : (encoded p s).HoldsWire (wireImage (wireBody s.ver s.flg s.txid p)) := by
  have hp := holdsPayload_length_le h
  refine ⟨?_, memory_holds_writeAll s.buf _⟩
  show _ = (BitVec.ofNat 9 (5 + s.len.toNat)).toNat
  rw [wireImage_wireBody_length, ← h.1, BitVec.toNat_ofNat, Nat.mod_eq_of_lt (by omega)]

/-- `ENCODE` leaves every byte behind the wire image as it was. -/
theorem encoded_buf_read_of_ge {i : Nat} (hi : 5 + s.len.toNat ≤ i) : (encoded p s).buf.read i = s.buf.read i :=
  memory_read_writeAll_outside s.buf (.inr (by rwa [wireImage_wireBody_length, h.1, Nat.zero_add]))

end

/-- Settles O34: the state is `encoded`. -/
theorem encodeResult : Obligations.EncodeResult := by
  refine ⟨decode_eq_ok_iff.2 rfl, fun s p h => ?_⟩
  exact ⟨(encoded p s).buf, exec_encode h, (encoded_holdsWire h).2, fun _ hi => encoded_buf_read_of_ge h hi⟩

end Sys2Proof.Machine
end

section
/-! PROOFS. `DECODE` (rules R161, R205). The reading of a byte sequence is cut where rule R161 is: the header, checked by
`readFrame` for its length, version and flags, and the extent behind it, `readExtent`. The machine reads the same bytes
from `BUF`, so the state it answers is `afterReading` of that reading. -/

namespace Sys2Proof.Machine

/-! ### The reading -/

/-- Steps 5 to 8 of rule R161 on the bytes behind the header bytes `b0`, `id`, `l`. -/
def readExtent (b0 id l : Byte) (rest : List Byte) : Except Code Frame :=
  if rest.length < l.toNat + 2 then .error .truncated
  else if joinBytes (rest.getD (l.toNat + 1) 0) (rest.getD l.toNat 0) ≠
      crc16 (frameBody b0 id l (rest.take l.toNat)) then .error .checksumMismatch
  else .ok ⟨b0Version b0, b0Flags b0, id, rest.take l.toNat, crc16 (frameBody b0 id l (rest.take l.toNat))⟩

/-- From 5 bytes up there are three header bytes and two more. -/
theorem exists_header {m : List Byte} (h : 5 ≤ m.length) :
    ∃ b0 id l rest, m = b0 :: id :: l :: rest ∧ 2 ≤ rest.length := by
  rcases m with _ | ⟨b0, _ | ⟨id, _ | ⟨l, rest⟩⟩⟩ <;> simp only [List.length_cons, List.length_nil] at h
  case cons.cons.cons => exact ⟨b0, id, l, rest, rfl, by omega⟩
  all_goals omega

/-- Below 5 bytes nothing is read but the length (rule R161 step 1). -/
theorem readFrame_of_length_lt {m : List Byte} (h : m.length < 5) : readFrame m = .error .truncated := by
  match m with
  | [] | [_] | [_, _] => rfl
  | b0 :: id :: l :: rest =>
    have hrest : rest.length < 2 := by
      simp only [List.length_cons] at h
      omega
    exact if_pos hrest

/-- The version is the supported one where the number of byte 0 says so (rules R7, R71). -/
theorem b0Version_eq_supported_iff (b : Byte) : b0Version b = Config.supportedVersion ↔ b.toNat / 64 = 0 := by
  rw [← BitVec.toNat_inj, b0Version_toNat]
  rfl

/-- The flags are invalid where the number of byte 0 says so (rules R71, R75). -/
theorem flagsOk_b0Flags_eq_false_iff (b : Byte) :
    flagsOk (b0Flags b) = false ↔ b.toNat % 8 = 0 ∨ b.toNat / 32 % 2 = 1 := by
  rw [← Bool.not_eq_true, flagsOk_iff, b0Flags_toNat]
  omega

/-- The two trailer bytes are a checksum where their numbers say so (rule R52). -/
theorem joinBytes_eq_iff (high low : Byte) (c : Word) :
    joinBytes high low = c ↔ low.toNat + 256 * high.toNat = c.toNat := by
  rw [← BitVec.toNat_inj, joinBytes_toNat]

/-- From 5 bytes up the version, the flags and the extent are read, in this order (rule R161 steps 2 to 8). -/
theorem readFrame_of_header (b0 id l : Byte) {rest : List Byte} (h : 2 ≤ rest.length) :
    readFrame (b0 :: id :: l :: rest) =
      if b0Version b0 ≠ Config.supportedVersion then .error .unsupportedVersion
      else if flagsOk (b0Flags b0) = false then .error .invalidFlags
      else readExtent b0 id l rest := by
  simp only [readFrame, readExtent, if_neg (Nat.not_lt.2 h), ne_eq, b0Version_eq_supported_iff,
    flagsOk_b0Flags_eq_false_iff, joinBytes_eq_iff, frameBody, List.cons_append, List.nil_append]
  by_cases hversion : b0.toNat / 64 = 0
  · rw [b0Flags_eq, (b0Version_eq_supported_iff b0).2 hversion]
  · rw [if_pos hversion, if_pos hversion]

/-- The extent of the frame with payload `p`, whatever follows it: the trailer alone decides. -/
theorem readExtent_append (b0 id : Byte) {l : Byte} {p : List Byte} (hp : p.length = l.toNat) (low high : Byte)
    (surplus : List Byte) :
    readExtent b0 id l (p ++ low :: high :: surplus) =
      if joinBytes high low ≠ crc16 (frameBody b0 id l p) then .error .checksumMismatch
      else .ok ⟨b0Version b0, b0Flags b0, id, p, crc16 (frameBody b0 id l p)⟩ := by
  have hfits : ¬(p ++ low :: high :: surplus).length < l.toNat + 2 := by
    simp only [List.length_append, List.length_cons]
    omega
  have hlow : (p ++ low :: high :: surplus).getD l.toNat 0 = low := by
    simp [← hp]
  have hhigh : (p ++ low :: high :: surplus).getD (l.toNat + 1) 0 = high := by
    simp [← hp]
  rw [readExtent, if_neg hfits, hlow, hhigh, List.take_left' hp]

/-- A frame that is read has a payload as long as its length byte says. -/
theorem readFrame_payload_length_le {m : List Byte} {f : Frame} (h : readFrame m = .ok f) : f.payload.length ≤ 255 := by
  have hmin : 5 ≤ m.length := by
    by_contra hlt
    rw [readFrame_of_length_lt (Nat.lt_of_not_le hlt)] at h
    cases h
  obtain ⟨b0, id, l, rest, rfl, hrest⟩ := exists_header hmin
  rw [readFrame_of_header b0 id l hrest, readExtent] at h
  split_ifs at h
  cases h
  have hl := l.isLt
  simp only [List.length_take]
  omega

/-! ### The machine -/

/-- What a successful `DECODE` does (rule R161 step 8), for the frame read. -/
def State.loaded (f : Frame) (s : State) : State :=
  { s with
    ver := f.ver, flg := f.flg, txid := f.id, len := BitVec.ofNat 8 f.payload.length, pl := s.pl.writeAll 0 f.payload,
    csum := f.csum, resp := some ⟨.ok, 0x0000⟩ }

@[simp] theorem loaded_ver (f : Frame) (s : State) : (s.loaded f).ver = f.ver := rfl
@[simp] theorem loaded_flg (f : Frame) (s : State) : (s.loaded f).flg = f.flg := rfl
@[simp] theorem loaded_txid (f : Frame) (s : State) : (s.loaded f).txid = f.id := rfl
@[simp] theorem loaded_len (f : Frame) (s : State) : (s.loaded f).len = BitVec.ofNat 8 f.payload.length := rfl
@[simp] theorem loaded_csum (f : Frame) (s : State) : (s.loaded f).csum = f.csum := rfl
@[simp] theorem loaded_buf (f : Frame) (s : State) : (s.loaded f).buf = s.buf := rfl
@[simp] theorem loaded_cnt (f : Frame) (s : State) : (s.loaded f).cnt = s.cnt := rfl
@[simp] theorem loaded_resp (f : Frame) (s : State) : (s.loaded f).resp = some ⟨.ok, 0x0000⟩ := rfl

/-- The state that `DECODE` answers, for what its bytes read as (rules R161, R205). -/
def afterReading : Except Code Frame → State → State
  | .error c, s => takeFailure c s
  | .ok f, s => s.loaded f

@[simp] theorem afterReading_error (c : Code) (s : State) : afterReading (.error c) s = takeFailure c s := rfl

@[simp] theorem afterReading_ok (f : Frame) (s : State) : afterReading (.ok f) s = s.loaded f := rfl

/-- The payload of a frame read stands in `PL`. -/
theorem loaded_holdsPayload {f : Frame} (h : f.payload.length ≤ 255) (s : State) :
    (s.loaded f).HoldsPayload f.payload :=
  ⟨(Nat.mod_eq_of_lt (Nat.lt_succ_of_le h)).symm, memory_holds_writeAll s.pl f.payload⟩

/-- `DECODE` leaves every byte of `PL` behind the payload as it was. -/
theorem loaded_pl_read_of_ge {f : Frame} (s : State) {i : Nat} (hi : f.payload.length ≤ i) :
    (s.loaded f).pl.read i = s.pl.read i :=
  memory_read_writeAll_outside s.pl (.inr (by rwa [Nat.zero_add]))

/-- A valid byte of `BUF` below its size is read. -/
theorem readByte_of_holdsWire {s : State} {m : List Byte} (h : s.HoldsWire m) {i : Nat} (hi : i < m.length)
    (hsize : i < 260) : readByte .buf i s = .ok m[i] :=
  readByte_eq_ok hsize (h.2 i hi)

section
variable {s : State} {b0 id l : Byte} {rest : List Byte} (h : s.HoldsWire (b0 :: id :: l :: rest))
include h

/-- A valid byte behind the header is read. -/
theorem readByte_behind_header {i : Nat} (hi : i < rest.length) (hsize : 3 + i < 260) :
    readByte .buf (3 + i) s = .ok (rest.getD i 0) := by
  have hlt : 3 + i < (b0 :: id :: l :: rest).length := by
    simp only [List.length_cons]
    omega
  rw [readByte_of_holdsWire h hlt hsize, List.getD_eq_getElem _ _ hi]
  simp only [Nat.add_comm 3 i, List.getElem_cons_succ]

/-- The machine's extent is the reading's: the machine reads at most the 260 bytes of the longest frame. -/
theorem decodeExtent_eq : decodeExtent b0 id l s = .next (afterReading (readExtent b0 id l rest) s) := by
  have hl := l.isLt
  have hcnt : s.cnt.toNat = 3 + rest.length := by
    rw [← h.1]
    simp only [List.length_cons]
    omega
  rw [decodeExtent, readExtent]
  by_cases hshort : rest.length < l.toNat + 2
  · rw [if_pos (show s.cnt.toNat < 5 + l.toNat by omega), if_pos hshort, fail_eq, afterReading_error]
  rw [if_neg (show ¬s.cnt.toNat < 5 + l.toNat by omega), if_neg hshort]
  have hbody : readBytes .buf 0 (3 + l.toNat) s = .ok (frameBody b0 id l (rest.take l.toNat)) := by
    have htake : (b0 :: id :: l :: rest).take (3 + l.toNat) = frameBody b0 id l (rest.take l.toNat) := by
      rw [Nat.add_comm]
      rfl
    rw [← htake]
    refine readBytes_take ?_ (show 3 + l.toNat ≤ 260 by omega) h.2
    simp only [List.length_cons]
    omega
  have hlow : readByte .buf (3 + l.toNat) s = .ok (rest.getD l.toNat 0) :=
    readByte_behind_header h (by omega) (by omega)
  have hhigh : readByte .buf (4 + l.toNat) s = .ok (rest.getD (l.toNat + 1) 0) := by
    rw [show 4 + l.toNat = 3 + (l.toNat + 1) by omega]
    exact readByte_behind_header h (by omega) (by omega)
  rw [hbody, orFault_ok, hlow, orFault_ok, hhigh, orFault_ok]
  by_cases hsum : joinBytes (rest.getD (l.toNat + 1) 0) (rest.getD l.toNat 0) =
      crc16 (frameBody b0 id l (rest.take l.toNat))
  · have hpayload : (frameBody b0 id l (rest.take l.toNat)).drop 3 = rest.take l.toNat := rfl
    have hlen : (rest.take l.toNat).length = l.toNat := List.length_take_of_le (by omega)
    have hfits : 0 + (rest.take l.toNat).length ≤ storeSize .pl := by
      rw [hlen, storeSize_pl]
      omega
    simp only [hsum, hpayload, ne_eq, not_true_eq_false, if_false, writeBytes_eq_ok _ s hfits, orFault_ok, done_eq,
      afterReading_ok, State.loaded, respond, setStore, storeOf, hlen, BitVec.ofNat_toNat, BitVec.setWidth_eq]
  · rw [if_pos hsum, if_pos hsum, fail_eq, afterReading_error]

end

/-- `DECODE` answers what the valid bytes of `BUF` read as (rules R161, R205). -/
theorem exec_decode {s : State} {m : List Byte} (h : s.HoldsWire m) :
    exec .decode s = .next (afterReading (readFrame m) s) := by
  show execDecode s = _
  by_cases hshort : m.length < 5
  · rw [execDecode, ← h.1, if_pos hshort, readFrame_of_length_lt hshort, fail_eq, afterReading_error]
  obtain ⟨b0, id, l, rest, rfl, hrest⟩ := exists_header (Nat.le_of_not_lt hshort)
  have h0 : readByte .buf 0 s = .ok b0 := readByte_of_holdsWire h (Nat.zero_lt_succ _) (by decide)
  have h1 : readByte .buf 1 s = .ok id := readByte_of_holdsWire h (by simp) (by decide)
  have h2 : readByte .buf 2 s = .ok l := readByte_of_holdsWire h (by simp) (by decide)
  rw [execDecode, ← h.1, if_neg hshort, h0, orFault_ok, h1, orFault_ok, h2, orFault_ok,
    readFrame_of_header b0 id l hrest, decodeExtent_eq h]
  by_cases hversion : b0Version b0 = Config.supportedVersion
  · rw [if_neg (not_not.2 hversion), if_neg (not_not.2 hversion)]
    by_cases hflags : flagsOk (b0Flags b0) = false
    · rw [if_pos hflags, if_pos hflags, fail_eq, afterReading_error]
    · rw [if_neg hflags, if_neg hflags]
  · rw [if_pos hversion, if_pos hversion, fail_eq, afterReading_error]

/-- Settles O36: `exec_decode` in either case of the reading. -/
theorem decodeRefinesReadFrame : Obligations.DecodeRefinesReadFrame := by
  intro s m h
  have hexec := exec_decode h
  cases hread : readFrame m with
  | error c =>
    rw [hread] at hexec
    exact hexec
  | ok f =>
    rw [hread] at hexec
    exact ⟨_, hexec, readFrame_payload_length_le hread, memory_holds_writeAll s.pl f.payload,
      fun _ hi => loaded_pl_read_of_ge s hi⟩

/-! ### Frames -/

/-- The reading of a header, a payload as long as it says and a trailer, whatever follows: three checks are left. -/
theorem readFrame_frameBody_append (b0 id : Byte) {l : Byte} {p : List Byte} (hp : p.length = l.toNat) (low high : Byte)
    (surplus : List Byte) :
    readFrame (frameBody b0 id l p ++ low :: high :: surplus) =
      if b0Version b0 ≠ Config.supportedVersion then .error .unsupportedVersion
      else if flagsOk (b0Flags b0) = false then .error .invalidFlags
      else if joinBytes high low ≠ crc16 (frameBody b0 id l p) then .error .checksumMismatch
      else .ok ⟨b0Version b0, b0Flags b0, id, p, crc16 (frameBody b0 id l p)⟩ := by
  have hrest : 2 ≤ (p ++ low :: high :: surplus).length := by
    simp only [List.length_append, List.length_cons]
    omega
  rw [← readExtent_append b0 id hp low high surplus, ← readFrame_of_header b0 id l hrest]
  rfl

/-- A wire image passes the check of its trailer (rules R52, R161). -/
theorem readFrame_wireImage_append (b0 id : Byte) {l : Byte} {p : List Byte} (hp : p.length = l.toNat)
    (surplus : List Byte) :
    readFrame (wireImage (frameBody b0 id l p) ++ surplus) =
      if b0Version b0 ≠ Config.supportedVersion then .error .unsupportedVersion
      else if flagsOk (b0Flags b0) = false then .error .invalidFlags
      else .ok ⟨b0Version b0, b0Flags b0, id, p, crc16 (frameBody b0 id l p)⟩ := by
  rw [← body_append_trailer, List.append_assoc, trailer, List.cons_append, List.cons_append, List.nil_append,
    readFrame_frameBody_append b0 id hp, joinBytes_high_low, if_neg (not_not.2 (Eq.refl (crc16 _)))]

/-- The length byte of a payload counts it. -/
theorem payload_length_eq {p : List Byte} (hp : p.length ≤ 255) : p.length = (BitVec.ofNat 8 p.length).toNat :=
  (Nat.mod_eq_of_lt (Nat.lt_succ_of_le hp)).symm

/-- The reading of an encoded frame, whatever follows it: its own fields, unless its version or its flags are refused
(rule R163). -/
theorem readFrame_wireBody_append (v : Version) (f : Flags) (id : Byte) {p : List Byte} (hp : p.length ≤ 255)
    (surplus : List Byte) :
    readFrame (wireImage (wireBody v f id p) ++ surplus) =
      if v ≠ Config.supportedVersion then .error .unsupportedVersion
      else if flagsOk f = false then .error .invalidFlags
      else .ok ⟨v, f, id, p, crc16 (wireBody v f id p)⟩ := by
  rw [← frameBody_eq_wireBody v f id (payload_length_eq hp), readFrame_wireImage_append _ id (payload_length_eq hp),
    b0Version_packB0, b0Flags_packB0]

/-- An encoded frame of the supported version with valid flags reads as itself. -/
theorem readFrame_of_valid {f : Flags} (hf : flagsOk f = true) (id : Byte) {p : List Byte} (hp : p.length ≤ 255)
    (surplus : List Byte) :
    readFrame (wireImage (wireBody Config.supportedVersion f id p) ++ surplus) =
      .ok ⟨Config.supportedVersion, f, id, p, crc16 (wireBody Config.supportedVersion f id p)⟩ := by
  rw [readFrame_wireBody_append _ f id hp, if_neg (not_not.2 rfl), if_neg (ne_false_of_eq_true hf)]

/-- Settles O35: such a frame reads as itself, and `DECODE` loads it. -/
theorem decodeOfAFrameSucceeds : Obligations.DecodeOfAFrameSucceeds := by
  refine ⟨decode_eq_ok_iff.2 rfl, fun s f id p surplus hf hp h => ?_⟩
  have hexec := exec_decode h
  simp only [readFrame_of_valid hf id hp, afterReading_ok, State.loaded] at hexec
  exact ⟨_, hexec, memory_holds_writeAll s.pl p, fun _ hi =>
    memory_read_writeAll_outside s.pl (.inr (by rwa [Nat.zero_add]))⟩

end Sys2Proof.Machine
end

section
/-! PROOFS. `TAG` (rules R162, R206): the bytes it leaves are those of the buffer with the id replaced, all but the last
two of them read, and the trailer written anew. -/

namespace Sys2Proof.Machine

/-- A byte written where a store holds bytes replaces that byte. -/
theorem memory_holds_write {m : Memory} {bs : List Byte} (h : m.Holds bs) (i : Nat) (b : Byte) :
    (m.write i b).Holds (bs.set i b) := by
  intro j hj
  rw [List.length_set] at hj
  rw [memory_read_write, List.getElem_set]
  by_cases hji : j = i
  · rw [if_pos hji, if_pos hji.symm]
  · rw [if_neg hji, if_neg (Ne.symm hji), h j hj]

/-- A store holds what it holds up to any length. -/
theorem memory_holds_take {m : Memory} {bs : List Byte} (h : m.Holds bs) (n : Nat) : m.Holds (bs.take n) := by
  intro i hi
  rw [List.length_take] at hi
  rw [h i (by omega), List.getElem_take]

/-- Bytes written behind bytes that a store holds stand behind them. -/
theorem memory_holds_writeAll_append {m : Memory} {bs : List Byte} (h : m.Holds bs) (cs : List Byte) :
    (m.writeAll bs.length cs).Holds (bs ++ cs) := by
  refine memory_holds_append.2 ⟨fun i hi => ?_, fun k hk => memory_read_writeAll_inside m hk⟩
  rw [memory_read_writeAll_outside m (.inl hi), h i hi]

/-- The bytes that `TAG` checksums: all but the last two, with the id in place (rule R162 step 5). -/
def tagBody (id : Byte) (m : List Byte) : List Byte :=
  (m.set 1 id).take (m.length - 2)

theorem tagBytes_eq (id : Byte) (m : List Byte) : tagBytes id m = wireImage (tagBody id m) := rfl

theorem tagBody_length (id : Byte) (m : List Byte) : (tagBody id m).length = m.length - 2 := by
  rw [tagBody, List.length_take, List.length_set, Nat.min_eq_left (Nat.sub_le _ _)]

/-- `TAG` keeps the number of bytes. -/
theorem tagBytes_length (id : Byte) {m : List Byte} (h : 2 ≤ m.length) : (tagBytes id m).length = m.length := by
  rw [tagBytes_eq, wireImage_length, tagBody_length, Nat.sub_add_cancel h]

/-- Tagging a body with any two bytes behind it is the wire image of the body with the id in place. -/
theorem tagBytes_append {body tail : List Byte} (id : Byte) (hbody : 2 ≤ body.length) (htail : tail.length = 2) :
    tagBytes id (body ++ tail) = wireImage (body.set 1 id) := by
  have hset : (body ++ tail).set 1 id = body.set 1 id ++ tail := List.set_append_left _ _ hbody
  have hlen : (body ++ tail).length - 2 = (body.set 1 id).length := by
    rw [List.length_append, htail, List.length_set, Nat.add_sub_cancel]
  rw [tagBytes, hset, hlen, List.take_left]

/-- What a successful `TAG` does (rule R162 steps 4 to 6), for the valid bytes `m` of `BUF`. -/
def State.tagged (id : Byte) (m : List Byte) (s : State) : State :=
  { s with
    buf := (s.buf.write 1 id).writeAll (m.length - 2) (trailer (crc16 (tagBody id m))), resp := some ⟨.ok, 0x0000⟩ }

@[simp] theorem tagged_txid (id : Byte) (m : List Byte) (s : State) : (s.tagged id m).txid = s.txid := rfl
@[simp] theorem tagged_csum (id : Byte) (m : List Byte) (s : State) : (s.tagged id m).csum = s.csum := rfl
@[simp] theorem tagged_cnt (id : Byte) (m : List Byte) (s : State) : (s.tagged id m).cnt = s.cnt := rfl

/-- `TAG` below 5 bytes (rule R162 step 1). -/
theorem exec_tag_of_length_lt {s : State} {m : List Byte} (h : s.HoldsWire m) (id : Byte) (hlen : m.length < 5) :
    exec (.tag id) s = .next (takeFailure .truncated s) := by
  show execTag id s = _
  rw [execTag, ← h.1, if_pos hlen, fail_eq]

section
variable {s : State} {m : List Byte} (h : s.HoldsWire m) (id : Byte) (hmin : 5 ≤ m.length)
include h hmin

/-- Byte 0 is read, since the buffer holds 5 bytes. -/
theorem readByte_zero_of_holdsWire : readByte .buf 0 s = .ok (m.getD 0 0) := by
  have hpos : 0 < m.length := by omega
  rw [readByte_of_holdsWire h hpos (by decide), List.getD_eq_getElem _ _ hpos]

/-- `TAG` of another version (rule R162 step 3). -/
theorem exec_tag_of_version_ne (hversion : b0Version (m.getD 0 0) ≠ Config.supportedVersion) :
    exec (.tag id) s = .next (takeFailure .unsupportedVersion s) := by
  show execTag id s = _
  rw [execTag, ← h.1, if_neg (Nat.not_lt.2 hmin), readByte_zero_of_holdsWire h hmin, orFault_ok, if_pos hversion, fail_eq]

/-- `TAG` of the supported version (rule R162 steps 4 to 6). -/
theorem exec_tag_of_version_eq (hmax : m.length ≤ 260) (hversion : b0Version (m.getD 0 0) = Config.supportedVersion) :
    exec (.tag id) s = .next (s.tagged id m) := by
  have hwrite : writeByte .buf 1 id s = .ok (setStore .buf (s.buf.write 1 id) s) := writeByte_eq_ok id s (by decide)
  have hread : readBytes .buf 0 (m.length - 2) (setStore .buf (s.buf.write 1 id) s) = .ok (tagBody id m) := by
    refine readBytes_take ?_ ((Nat.sub_le _ _).trans hmax) (memory_holds_write h.2 1 id)
    rw [List.length_set]
    exact Nat.sub_le _ _
  have hfits : m.length - 2 + (trailer (crc16 (tagBody id m))).length ≤ storeSize .buf := by
    simp only [trailer, List.length_cons, List.length_nil, storeSize_buf]
    omega
  show execTag id s = _
  simp only [execTag, ← h.1, Config.minFrameBytes, Config.trailerBytes, if_neg (Nat.not_lt.2 hmin),
    readByte_zero_of_holdsWire h hmin, hversion, ne_eq, not_true_eq_false, if_false, hwrite, orFault_ok, hread,
    writeBytes_eq_ok _ _ hfits, storeOf_setStore, setStore_setStore]
  simp only [done_eq, respond, setStore, State.tagged]

/-- After `TAG` the buffer holds the bytes of rule R162. -/
theorem tagged_holdsWire : (s.tagged id m).HoldsWire (tagBytes id m) := by
  refine ⟨(tagBytes_length id (by omega)).trans h.1, ?_⟩
  have hbody : (s.buf.write 1 id).Holds (tagBody id m) := memory_holds_take (memory_holds_write h.2 1 id) _
  have himage := memory_holds_writeAll_append hbody (trailer (crc16 (tagBody id m)))
  rwa [body_append_trailer, tagBody_length] at himage

end

/-- `TAG` writes the id byte and the trailer alone (rule R162). -/
theorem tagged_buf_read_of_ne (s : State) (id : Byte) {m : List Byte} (hmin : 5 ≤ m.length) {i : Nat} (h1 : i ≠ 1)
    (hlow : i ≠ m.length - 2) (hhigh : i ≠ m.length - 1) : (s.tagged id m).buf.read i = s.buf.read i := by
  have houtside : i < m.length - 2 ∨ m.length - 2 + (trailer (crc16 (tagBody id m))).length ≤ i := by
    simp only [trailer, List.length_cons, List.length_nil]
    omega
  exact (memory_read_writeAll_outside _ houtside).trans (memory_read_write_other s.buf id h1)

/-- Settles O37, case by case. -/
theorem tagResult : Obligations.TagResult := by
  intro s id m h hmax
  refine ⟨decode_eq_ok_iff.2 rfl, exec_tag_of_length_lt h id, fun hmin hversion => ?_, fun hmin hversion => ?_⟩
  · exact exec_tag_of_version_ne h id hmin (mt (b0Version_eq_supported_iff _).1 hversion)
  · exact ⟨(s.tagged id m).buf, exec_tag_of_version_eq h id hmin hmax ((b0Version_eq_supported_iff _).2 hversion),
      tagBytes_length id (by omega), (tagged_holdsWire h id hmin).2, fun _ => tagged_buf_read_of_ne s id hmin⟩

end Sys2Proof.Machine
end

section
/-! PROOFS. `ENCODE`, `TAG` and `DECODE` one after another (rules R163, R164). What each leaves in `BUF` is a wire image,
so the laws are equations between wire images and their readings. -/

namespace Sys2Proof.Machine

/-! ### Round trip -/

/-- Two stores that hold the same bytes read alike where these stand. -/
theorem memory_read_eq_of_holds {m n : Memory} {bs : List Byte} (hm : m.Holds bs) (hn : n.Holds bs) {i : Nat}
    (hi : i < bs.length) : m.read i = n.read i :=
  (hm i hi).trans (hn i hi).symm

/-- `DECODE` right after `ENCODE` reads the fields encoded, unless the version or the flags are refused (rule R163). -/
theorem exec_decode_encoded {s : State} {p : List Byte} (h : s.HoldsPayload p) :
    exec .decode (encoded p s) =
      .next (afterReading
        (if s.ver ≠ Config.supportedVersion then .error .unsupportedVersion
          else if flagsOk s.flg = false then .error .invalidFlags
          else .ok ⟨s.ver, s.flg, s.txid, p, crc16 (wireBody s.ver s.flg s.txid p)⟩) (encoded p s)) := by
  have hread := readFrame_wireBody_append s.ver s.flg s.txid (holdsPayload_length_le h) []
  rw [List.append_nil] at hread
  rw [exec_decode (encoded_holdsWire h), hread]

/-- The checksummed bytes of any header are the frame format's (rules R71, R103). -/
theorem frameBody_eq_wireBody_fields (b0 id : Byte) {l : Byte} {p : List Byte} (hp : p.length = l.toNat) :
    frameBody b0 id l p = wireBody (b0Version b0) (b0Flags b0) id p := by
  rw [← frameBody_eq_wireBody _ _ _ hp, packB0_b0Version_b0Flags]

/-- `ENCODE` right after a `DECODE` answered `OK` writes the bytes that `DECODE` read (rule R163). -/
theorem exec_encode_of_decoded {s t : State} (h : exec .decode s = .next t) (hok : t.resp = some ⟨.ok, 0x0000⟩) :
    ∃ u, exec .encode t = .next u ∧ u.cnt.toNat = 5 + t.len.toNat ∧
      ∀ i, i < 5 + t.len.toNat → u.buf.read i = s.buf.read i := by
  obtain ⟨c, hc, rfl⟩ | ⟨b0, id, l, p, hlen, -, -, -, hbuf, rfl⟩ := execDecode_inv h
  · have hcode : c = .ok := congrArg Response.code (Option.some.inj hok)
    exact absurd hc (by simp [hcode])
  have hpayload : (decoded b0 id l p (crc16 (frameBody b0 id l p)) s).HoldsPayload p :=
    ⟨hlen, memory_holds_writeAll s.pl p⟩
  obtain ⟨hcnt, hwire⟩ := encoded_holdsWire hpayload
  rw [wireImage_wireBody_length, hpayload.1] at hcnt
  rw [frameBody_eq_wireBody_fields b0 id hlen] at hbuf
  refine ⟨_, exec_encode hpayload, hcnt.symm, fun i hi => memory_read_eq_of_holds hwire hbuf ?_⟩
  rwa [wireImage_wireBody_length, hpayload.1]

/-- Settles O38: `exec_decode_encoded` in each of its three cases, and `exec_encode_of_decoded`. -/
theorem encodeDecodeRoundTrip : Obligations.EncodeDecodeRoundTrip := by
  refine ⟨fun s p h => ⟨encoded p s, exec_encode h, fun hver hflg => ?_, fun hver => ?_, fun hver hflg => ?_⟩,
    fun s t => exec_encode_of_decoded⟩
  · have hdecode := exec_decode_encoded h
    rw [if_neg (not_not.2 hver), if_neg (ne_false_of_eq_true hflg), afterReading_ok] at hdecode
    have hlen : BitVec.ofNat 8 p.length = s.len := by rw [h.1, BitVec.ofNat_toNat, BitVec.setWidth_eq]
    exact ⟨_, hdecode, loaded_resp _ _, (encoded_ver p s).symm, (encoded_flg p s).symm, (encoded_txid p s).symm, hlen,
      by rw [loaded_csum, encoded_csum], loaded_holdsPayload (holdsPayload_length_le h) _, h⟩
  · rw [exec_decode_encoded h, if_pos hver, afterReading_error, takeFailure_eq_afterFailure]
    rfl
  · rw [exec_decode_encoded h, if_neg (not_not.2 hver), if_pos hflg, afterReading_error, takeFailure_eq_afterFailure]
    rfl

end Sys2Proof.Machine
end

section
/-! PROOFS. `TAG` on encoded frames (rule R164): tagging a wire image is the wire image with the id in place, and a
tagged buffer that is one frame reads as that frame with the new id. -/

namespace Sys2Proof.Machine

/-- Tagging an encoded frame gives the encoded frame with the new id. -/
theorem tagBytes_wireImage (v : Version) (f : Flags) (i id : Byte) (p : List Byte) :
    tagBytes id (wireImage (wireBody v f i p)) = wireImage (wireBody v f id p) := by
  have hbody : 2 ≤ (wireBody v f i p).length := by
    rw [wireBody_length]
    omega
  exact tagBytes_append id hbody rfl

/-- Byte 0 of an encoded frame carries its version. -/
theorem b0Version_wireImage (v : Version) (f : Flags) (id : Byte) {p : List Byte} (hp : p.length ≤ 255) :
    b0Version ((wireImage (wireBody v f id p)).getD 0 0) = v := by
  rw [← frameBody_eq_wireBody v f id (payload_length_eq hp)]
  exact b0Version_packB0 v f

/-- `DECODE` of an encoded frame of the supported version with valid flags loads it. -/
theorem exec_decode_of_valid {s : State} {f : Flags} (hf : flagsOk f = true) {id : Byte} {p : List Byte}
    (hp : p.length ≤ 255) (h : s.HoldsWire (wireImage (wireBody Config.supportedVersion f id p))) :
    exec .decode s = .next
      (s.loaded ⟨Config.supportedVersion, f, id, p, crc16 (wireBody Config.supportedVersion f id p)⟩) := by
  have hread := readFrame_of_valid hf id hp []
  rw [List.append_nil] at hread
  rw [exec_decode h, hread, afterReading_ok]

/-- The state after `SETID`. -/
def State.withId (id : Byte) (s : State) : State :=
  respond .ok 0 { s with txid := id }

section
variable {s : State} {p : List Byte} (h : s.HoldsPayload p) (id : Byte)
include h

/-- `SETID` and `ENCODE`, and what follows. -/
theorem execAll_setid_encode (is : List Instr) :
    execAll (.setid id :: .encode :: is) s = execAll is (encoded p (s.withId id)) := by
  rw [execAll_cons_of_next (exec_setid id s), execAll_cons_of_next (t := encoded p (s.withId id))]
  exact exec_encode (s := s.withId id) h

/-- `SETID` and `ENCODE` leave the wire image with the id set. -/
theorem encoded_withId_holdsWire :
    (encoded p (s.withId id)).HoldsWire (wireImage (wireBody s.ver s.flg id p)) :=
  encoded_holdsWire (s := s.withId id) h

/-- `TAG` of an encoded frame of the supported version succeeds. -/
theorem exec_tag_encoded (hver : s.ver = Config.supportedVersion) (i : Byte) :
    exec (.tag id) (encoded p (s.withId i)) =
      .next ((encoded p (s.withId i)).tagged id (wireImage (wireBody s.ver s.flg i p))) := by
  have hp := holdsPayload_length_le h
  refine exec_tag_of_version_eq (encoded_withId_holdsWire h i) id ?_ ?_ ((b0Version_wireImage _ _ _ hp).trans hver)
  · rw [wireImage_wireBody_length]
    omega
  · rw [wireImage_wireBody_length]
    omega

/-- `TAG` of an encoded frame leaves the wire image with the id stamped. -/
theorem tagged_encoded_holdsWire (i : Byte) :
    ((encoded p (s.withId i)).tagged id (wireImage (wireBody s.ver s.flg i p))).HoldsWire
      (wireImage (wireBody s.ver s.flg id p)) := by
  have hwire := encoded_withId_holdsWire h i
  rw [← tagBytes_wireImage s.ver s.flg i id p]
  refine tagged_holdsWire hwire id ?_
  rw [wireImage_wireBody_length]
  omega

/-- Encoding with one id and tagging with another leaves every byte of `BUF` as encoding with the other does: up to `CNT`
both are the wire image, and behind it neither writes. -/
theorem tagged_encoded_buf_read (i : Byte) (k : Nat) :
    ((encoded p (s.withId i)).tagged id (wireImage (wireBody s.ver s.flg i p))).buf.read k =
      (encoded p (s.withId id)).buf.read k := by
  by_cases hk : k < 5 + p.length
  · refine memory_read_eq_of_holds (tagged_encoded_holdsWire h id i).2 (encoded_withId_holdsWire h id).2 ?_
    rwa [wireImage_wireBody_length]
  · have hlen : (wireImage (wireBody s.ver s.flg i p)).length = 5 + p.length := wireImage_wireBody_length ..
    have hge : 5 + s.len.toNat ≤ k := by
      rw [← h.1]
      exact Nat.le_of_not_lt hk
    rw [tagged_buf_read_of_ne _ id (by omega) (by omega) (by omega) (by omega),
      encoded_buf_read_of_ge (s := s.withId i) h hge, encoded_buf_read_of_ge (s := s.withId id) h hge]
    rfl

end

/-- The first half of rule R164. -/
theorem tagging_commutes {s : State} {p : List Byte} (id : Byte) (hver : s.ver = Config.supportedVersion)
    (h : s.HoldsPayload p) :
    ∃ t u, execAll [.setid 0x00, .encode, .tag id] s = .next t ∧ execAll [.setid id, .encode] s = .next u ∧
      t.cnt = u.cnt ∧ (∀ i, t.buf.read i = u.buf.read i) ∧
      t.txid = 0x00 ∧ t.csum = crc16 (wireBody s.ver s.flg 0x00 p) ∧
      u.txid = id ∧ u.csum = crc16 (wireBody s.ver s.flg id p) ∧ u.HoldsWire (wireImage (wireBody s.ver s.flg id p)) ∧
      (flagsOk s.flg = true → ∃ t' u', exec .decode t = .next t' ∧ exec .decode u = .next u' ∧
        t'.resp = some ⟨.ok, 0x0000⟩ ∧ u'.resp = some ⟨.ok, 0x0000⟩ ∧ t'.txid = id ∧ u'.txid = id) := by
  have htagged := tagged_encoded_holdsWire h id 0x00
  have hencoded := encoded_withId_holdsWire h id
  have htag : execAll [.setid 0x00, .encode, .tag id] s = .next _ :=
    (execAll_setid_encode h 0x00 _).trans (execAll_cons_of_next (exec_tag_encoded h id hver 0x00) [])
  refine ⟨_, _, htag, execAll_setid_encode h id [], rfl, tagged_encoded_buf_read h id 0x00, rfl, ?_, rfl, ?_, hencoded,
    fun hflg => ?_⟩
  · exact (tagged_csum ..).trans (encoded_csum p (s.withId 0x00))
  · exact encoded_csum p (s.withId id)
  · rw [hver] at htagged hencoded
    have hp := holdsPayload_length_le h
    exact ⟨_, _, hver ▸ exec_decode_of_valid hflg hp htagged, exec_decode_of_valid hflg hp hencoded, loaded_resp _ _,
      loaded_resp _ _, rfl, rfl⟩

/-- Tagging a buffer that is one frame, whatever its trailer, gives the wire image of its header and payload with the id
in place. -/
theorem tagBytes_header (b0 i id : Byte) {l : Byte} {rest : List Byte} (hlen : rest.length = l.toNat + 2) :
    tagBytes id (b0 :: i :: l :: rest) = wireImage (frameBody b0 id l (rest.take l.toNat)) := by
  have hsplit : b0 :: i :: l :: rest = frameBody b0 i l (rest.take l.toNat) ++ rest.drop l.toNat := by
    rw [frameBody, List.append_assoc, List.take_append_drop]
    rfl
  have hbody : 2 ≤ (frameBody b0 i l (rest.take l.toNat)).length := by
    rw [frameBody_length]
    omega
  have htail : (rest.drop l.toNat).length = 2 := by
    rw [List.length_drop, hlen, Nat.add_sub_cancel_left]
  rw [hsplit, tagBytes_append id hbody htail]
  rfl

/-- The second half of rule R164: a tagged buffer that is one frame decodes to the id stamped. -/
theorem execAll_tag_decode {s : State} {b0 i l : Byte} (id : Byte) {rest : List Byte}
    (h : s.HoldsWire (b0 :: i :: l :: rest)) (hlen : rest.length = l.toNat + 2)
    (hversion : b0Version b0 = Config.supportedVersion) (hflags : flagsOk (b0Flags b0) = true) :
    ∃ u, execAll [.tag id, .decode] s = .next u ∧ u.resp = some ⟨.ok, 0x0000⟩ ∧ u.txid = id := by
  have hl := l.isLt
  have hcount : (b0 :: i :: l :: rest).length = 5 + l.toNat := by
    simp only [List.length_cons]
    omega
  have htag := exec_tag_of_version_eq h id (by omega) (by omega) hversion
  have hwire := tagged_holdsWire h id (by omega)
  have hread := readFrame_wireImage_append b0 id (List.length_take_of_le (Nat.le.intro hlen.symm)) []
  rw [List.append_nil, if_neg (not_not.2 hversion), if_neg (ne_false_of_eq_true hflags)] at hread
  rw [tagBytes_header b0 i id hlen] at hwire
  have hdecode := exec_decode hwire
  rw [hread, afterReading_ok] at hdecode
  exact ⟨_, (execAll_cons_of_next htag _).trans (execAll_cons_of_next hdecode []), loaded_resp _ _, loaded_txid _ _⟩

/-- Settles O39, half by half. -/
theorem taggingCommutesWithEncoding : Obligations.TaggingCommutesWithEncoding := by
  refine ⟨fun s p id hver h => tagging_commutes id hver h, fun s b0 i l id rest h hlen hversion hflags => ?_⟩
  rw [← b0Flags_eq] at hflags
  exact execAll_tag_decode id h hlen ((b0Version_eq_supported_iff b0).2 hversion) hflags

end Sys2Proof.Machine
end

section
/-! PROOFS. What one flipped bit of an encoded frame does to `DECODE` (rule R165). Every case is a reading of the flipped
bytes: a bit outside the length byte leaves the layout, so the trailer no longer fits unless a check before it refuses; a
bit of the length byte moves the trailer. -/

namespace Sys2Proof.Machine

/-! ### One bit as a number -/

/-- A single bit as a number. -/
theorem one_shiftLeft_toNat {w k : Nat} (hk : k < w) : (1#w <<< k).toNat = 2 ^ k := by
  rw [← BitVec.twoPow_eq, BitVec.toNat_twoPow_of_lt hk]

/-- Setting a bit that is clear adds its weight. -/
theorem xor_bit_toNat_of_clear {w : Nat} (x : BitVec w) {k : Nat} (hk : k < w) (h : x.getLsbD k = false) :
    (x ^^^ (1#w <<< k)).toNat = x.toNat + 2 ^ k := by
  have hdisjoint : x &&& (1#w <<< k) = 0#w := by
    rw [← BitVec.twoPow_eq, BitVec.and_twoPow, h]
    rfl
  have hxor : x ^^^ (1#w <<< k) = x ||| (1#w <<< k) := by
    refine BitVec.eq_of_getLsbD_eq fun i _ => ?_
    have hi := congrArg (·.getLsbD i) hdisjoint
    simp only [BitVec.getLsbD_and, BitVec.getLsbD_zero] at hi
    rw [BitVec.getLsbD_xor, BitVec.getLsbD_or]
    revert hi
    generalize x.getLsbD i = a, (1#w <<< k).getLsbD i = b
    revert a b
    decide
  rw [hxor, ← BitVec.add_eq_or_of_and_eq_zero _ _ hdisjoint, BitVec.toNat_add_of_and_eq_zero hdisjoint,
    one_shiftLeft_toNat hk]

/-- Clearing a bit that is set takes its weight away. -/
theorem xor_bit_toNat_of_set {w : Nat} (x : BitVec w) {k : Nat} (hk : k < w) (h : x.getLsbD k = true) :
    (x ^^^ (1#w <<< k)).toNat + 2 ^ k = x.toNat := by
  have hclear : (x ^^^ (1#w <<< k)).getLsbD k = false := by
    simp [hk, h]
  rw [← xor_bit_toNat_of_clear _ hk hclear, BitVec.xor_assoc, BitVec.xor_self, BitVec.xor_zero]

/-- The version bits are inverted one by one (rule R71). -/
theorem b0Version_xor (a b : Byte) : b0Version (a ^^^ b) = b0Version a ^^^ b0Version b := BitVec.extractLsb'_xor

/-- The flags bits are inverted one by one (rule R71). -/
theorem b0Flags_xor (a b : Byte) : b0Flags (a ^^^ b) = b0Flags a ^^^ b0Flags b := BitVec.extractLsb'_xor

/-- Inverting a bit below 6 of a header byte inverts that flag and keeps the version (rule R71). -/
theorem b0Flags_xor_bit (b : Byte) {k : Nat} (hk : k < 6) :
    b0Flags (b ^^^ (1#8 <<< k)) = b0Flags b ^^^ (1#6 <<< k) ∧ b0Version (b ^^^ (1#8 <<< k)) = b0Version b := by
  have hbit : b0Flags (1#8 <<< k) = 1#6 <<< k ∧ b0Version (1#8 <<< k) = 0#2 := by
    revert k
    decide
  obtain ⟨hflags, hversion⟩ := hbit
  rw [b0Flags_xor, b0Version_xor, hflags, hversion, BitVec.xor_zero]
  exact ⟨rfl, rfl⟩

/-- Inverting a bit from 6 up of a header byte gives another version (rule R71). -/
theorem b0Version_xor_bit_ne (b : Byte) {k : Nat} (hk : k < 8) (hge : 6 ≤ k) :
    b0Version (b ^^^ (1#8 <<< k)) ≠ b0Version b := by
  have hbit : b0Version (1#8 <<< k) ≠ 0#2 := by
    revert k
    decide
  rw [b0Version_xor]
  intro h
  exact hbit (by simpa using congrArg (b0Version b ^^^ ·) h)

/-! ### The answer by the reading -/

theorem answersCode_of_readFrame_error {s : State} {m : List Byte} {c : Code} (h : s.HoldsWire m)
    (hread : readFrame m = .error c) : AnswersCode .decode s c :=
  ⟨takeFailure c s, by rw [exec_decode h, hread, afterReading_error], rfl⟩

theorem answersCode_of_readFrame_ok {s : State} {m : List Byte} {f : Frame} (h : s.HoldsWire m)
    (hread : readFrame m = .ok f) : AnswersCode .decode s .ok :=
  ⟨s.loaded f, by rw [exec_decode h, hread, afterReading_ok], rfl⟩

/-! ### The layout unchanged -/

section
variable {b0 id l : Byte} {p : List Byte} (hp : p.length = l.toNat)
include hp

/-- A frame of the supported version with valid flags and another trailer is a mismatch (rule R161 step 7). -/
theorem readFrame_of_trailer_ne (hversion : b0Version b0 = Config.supportedVersion)
    (hflags : flagsOk (b0Flags b0) = true) {c : Word} (hc : c ≠ crc16 (frameBody b0 id l p)) :
    readFrame (frameBody b0 id l p ++ trailer c) = .error .checksumMismatch := by
  rw [trailer, readFrame_frameBody_append b0 id hp, if_neg (not_not.2 hversion),
    if_neg (ne_false_of_eq_true hflags), joinBytes_high_low, if_pos hc]

/-- Header bytes of another version are refused first (rule R161 step 3). -/
theorem readFrame_of_version_ne (hversion : b0Version b0 ≠ Config.supportedVersion) (c : Word) :
    readFrame (frameBody b0 id l p ++ trailer c) = .error .unsupportedVersion := by
  rw [trailer, readFrame_frameBody_append b0 id hp, if_pos hversion]

/-- Header bytes with invalid flags are refused next (rule R161 step 4). -/
theorem readFrame_of_flags_invalid (hversion : b0Version b0 = Config.supportedVersion)
    (hflags : flagsOk (b0Flags b0) = false) (c : Word) :
    readFrame (frameBody b0 id l p ++ trailer c) = .error .invalidFlags := by
  rw [trailer, readFrame_frameBody_append b0 id hp, if_neg (not_not.2 hversion), if_pos hflags]

end

/-- A flipped bit of the checksummed bytes leaves the trailer. -/
theorem flipBit_wireImage_of_lt {body : List Byte} {j : Nat} (k : Nat) (hj : j < body.length) :
    flipBit (wireImage body) j k = flipBit body j k ++ trailer (crc16 body) := by
  rw [← body_append_trailer, flipBit_append_left _ k hj]

/-- A flipped bit of a trailer gives the trailer of another checksum. -/
theorem exists_flipBit_trailer (c : Word) {j k : Nat} (hj : j < 2) (hk : k < 8) :
    ∃ c', c' ≠ c ∧ flipBit (trailer c) j k = trailer c' := by
  rcases (show j = 0 ∨ j = 1 by omega) with rfl | rfl
  · refine ⟨joinBytes (highByte c) (lowByte c ^^^ (1#8 <<< k)), fun h => ?_, (trailer_joinBytes _ _).symm⟩
    have hlow := congrArg lowByte h
    rw [lowByte_joinBytes] at hlow
    exact xor_bit_ne _ hk hlow
  · refine ⟨joinBytes (highByte c ^^^ (1#8 <<< k)) (lowByte c), fun h => ?_, (trailer_joinBytes _ _).symm⟩
    have hhigh := congrArg highByte h
    rw [highByte_joinBytes] at hhigh
    exact xor_bit_ne _ hk hhigh

section
variable {b0 id l : Byte} {p : List Byte} {j k : Nat}

/-- A flipped bit of the checksummed bytes that leaves a frame of the supported version with valid flags is a
mismatch: the checksum sees it, and the trailer is the old one. -/
theorem readFrame_flipBit_of_body {body : List Byte} (hj : j < body.length) (hk : k < 8)
    (hflip : flipBit body j k = frameBody b0 id l p) (hp : p.length = l.toNat)
    (hversion : b0Version b0 = Config.supportedVersion) (hflags : flagsOk (b0Flags b0) = true) :
    readFrame (flipBit (wireImage body) j k) = .error .checksumMismatch := by
  rw [flipBit_wireImage_of_lt k hj, hflip]
  exact readFrame_of_trailer_ne hp hversion hflags (hflip ▸ (crc16_flipBit_ne hj hk).symm)

/-- A flipped bit of the trailer is a mismatch. -/
theorem readFrame_flipBit_of_trailer (hp : p.length = l.toNat) (hj : 3 + p.length ≤ j) (hlt : j < 5 + p.length)
    (hk : k < 8) (hversion : b0Version b0 = Config.supportedVersion) (hflags : flagsOk (b0Flags b0) = true) :
    readFrame (flipBit (wireImage (frameBody b0 id l p)) j k) = .error .checksumMismatch := by
  have hbody := frameBody_length b0 id l p
  obtain ⟨c, hc, htrailer⟩ := exists_flipBit_trailer (crc16 (frameBody b0 id l p))
    (show j - (frameBody b0 id l p).length < 2 by omega) hk
  rw [← body_append_trailer, flipBit_append_right _ k (by omega), htrailer]
  exact readFrame_of_trailer_ne hp hversion hflags hc

end

/-! ### The length byte -/

section
variable {b0 id l : Byte} {p : List Byte} (c : Word)

/-- A length byte that counts more than the payload runs past the end (rule R161 step 5). -/
theorem readFrame_of_length_gt (hgt : p.length < l.toNat) (hversion : b0Version b0 = Config.supportedVersion)
    (hflags : flagsOk (b0Flags b0) = true) : readFrame (frameBody b0 id l p ++ trailer c) = .error .truncated := by
  have hlen : (p ++ trailer c).length = p.length + 2 := List.length_append
  have hread := readFrame_of_header b0 id l (rest := p ++ trailer c) (by omega)
  rw [if_neg (not_not.2 hversion), if_neg (ne_false_of_eq_true hflags), readExtent, if_pos (by omega)] at hread
  exact hread

/-- A length byte that counts at most the payload: what stands behind that many bytes is taken as trailer, and either it
does not fit or the shorter frame is read (rule R161 steps 6 to 8). -/
theorem readFrame_of_length_le (hle : l.toNat ≤ p.length) (hversion : b0Version b0 = Config.supportedVersion)
    (hflags : flagsOk (b0Flags b0) = true) :
    readFrame (frameBody b0 id l p ++ trailer c) = .error .checksumMismatch ∨
      (∃ f, readFrame (frameBody b0 id l p ++ trailer c) = .ok f) ∧
        (p ++ trailer c).getD l.toNat 0 = lowByte (crc16 (frameBody b0 id l (p.take l.toNat))) ∧
        (p ++ trailer c).getD (l.toNat + 1) 0 = highByte (crc16 (frameBody b0 id l (p.take l.toNat))) := by
  have hlen : (p ++ trailer c).length = p.length + 2 := List.length_append
  have hread := readFrame_of_header b0 id l (rest := p ++ trailer c) (by omega)
  rw [if_neg (not_not.2 hversion), if_neg (ne_false_of_eq_true hflags), readExtent, if_neg (by omega),
    List.take_append_of_le_length hle] at hread
  by_cases hsum : joinBytes ((p ++ trailer c).getD (l.toNat + 1) 0) ((p ++ trailer c).getD l.toNat 0) =
      crc16 (frameBody b0 id l (p.take l.toNat))
  · rw [if_neg (not_not.2 hsum)] at hread
    exact .inr ⟨⟨_, hread⟩, by rw [← hsum, lowByte_joinBytes], by rw [← hsum, highByte_joinBytes]⟩
  · rw [if_pos hsum] at hread
    exact .inl hread

end

/-! ### The statement -/

section
variable {s : State} {f : Flags} {id : Byte} {p : List Byte} {j k : Nat} (hp : p.length ≤ 255)
  (h : s.HoldsWire (flipBit (wireImage (wireBody Config.supportedVersion f id p)) j k))
include hp h

/-- A bit of the id, the payload or the trailer (rule R165). -/
theorem flippedBit_behind_header (hk : k < 8) (hf : flagsOk f = true) (hj : j = 1 ∨ (3 ≤ j ∧ j < 5 + p.length)) :
    AnswersCode .decode s .checksumMismatch := by
  refine answersCode_of_readFrame_error h ?_
  have hversion := b0Version_packB0 Config.supportedVersion f
  have hflags : flagsOk (b0Flags (packB0 Config.supportedVersion f)) = true := (b0Flags_packB0 _ f).symm ▸ hf
  have hl := payload_length_eq hp
  rw [← frameBody_eq_wireBody _ f id hl]
  have hbody := frameBody_length (packB0 Config.supportedVersion f) id (BitVec.ofNat 8 p.length) p
  rcases hj with rfl | ⟨hge, hlt⟩
  · exact readFrame_flipBit_of_body (by omega) hk rfl hl hversion hflags
  by_cases hpayload : j < 3 + p.length
  · obtain ⟨i, rfl⟩ := Nat.exists_eq_add_of_le' hge
    exact readFrame_flipBit_of_body (p := flipBit p i k) (by omega) hk rfl (by rwa [flipBit_length]) hversion hflags
  · exact readFrame_flipBit_of_trailer hl (by omega) hlt hk hversion hflags

/-- A version bit (rule R165). -/
theorem flippedBit_of_version (hk : k < 8) (hj : j = 0) (hge : 6 ≤ k) : AnswersCode .decode s .unsupportedVersion := by
  refine answersCode_of_readFrame_error h ?_
  have hl := payload_length_eq hp
  have hversion := b0Version_xor_bit_ne (packB0 Config.supportedVersion f) hk hge
  rw [b0Version_packB0] at hversion
  rw [hj, ← frameBody_eq_wireBody _ f id hl, flipBit_wireImage_of_lt k (by rw [frameBody_length]; omega)]
  exact readFrame_of_version_ne hl hversion _

/-- A flags bit that makes the flags invalid (rule R165). -/
theorem flippedBit_of_flags_invalid (hj : j = 0) (hlt : k < 6) (hf : flagsOk (f ^^^ (1#6 <<< k)) = false) :
    AnswersCode .decode s .invalidFlags := by
  refine answersCode_of_readFrame_error h ?_
  have hl := payload_length_eq hp
  obtain ⟨hflags, hversion⟩ := b0Flags_xor_bit (packB0 Config.supportedVersion f) hlt
  rw [b0Flags_packB0] at hflags
  rw [b0Version_packB0] at hversion
  rw [hj, ← frameBody_eq_wireBody _ f id hl, flipBit_wireImage_of_lt k (by rw [frameBody_length]; omega)]
  exact readFrame_of_flags_invalid hl hversion (hflags.symm ▸ hf) _

/-- A flags bit that leaves the flags valid (rule R165). -/
theorem flippedBit_of_flags_valid (hk : k < 8) (hj : j = 0) (hlt : k < 6)
    (hf : flagsOk (f ^^^ (1#6 <<< k)) = true) : AnswersCode .decode s .checksumMismatch := by
  refine answersCode_of_readFrame_error h ?_
  have hl := payload_length_eq hp
  obtain ⟨hflags, hversion⟩ := b0Flags_xor_bit (packB0 Config.supportedVersion f) hlt
  rw [b0Flags_packB0] at hflags
  rw [b0Version_packB0] at hversion
  rw [hj, ← frameBody_eq_wireBody _ f id hl]
  exact readFrame_flipBit_of_body (by rw [frameBody_length]; omega) hk rfl hl hversion (hflags.symm ▸ hf)

/-- A flipped bit of the length byte leaves every other byte where it was. -/
theorem holdsWire_flipped_length (hj : j = 2) :
    s.HoldsWire (frameBody (packB0 Config.supportedVersion f) id (BitVec.ofNat 8 p.length ^^^ (1#8 <<< k)) p ++
      trailer (crc16 (wireBody Config.supportedVersion f id p))) := by
  rw [hj, ← frameBody_eq_wireBody _ f id (payload_length_eq hp),
    flipBit_wireImage_of_lt k (by rw [frameBody_length]; omega)] at h
  rw [← frameBody_eq_wireBody _ f id (payload_length_eq hp)]
  exact h

/-- A length bit that was 0 (rule R165). -/
theorem flippedBit_of_length_clear (hk : k < 8) (hf : flagsOk f = true) (hj : j = 2)
    (hbit : p.length.testBit k = false) : AnswersCode .decode s .truncated := by
  have hclear : (BitVec.ofNat 8 p.length).getLsbD k = false := by
    rw [BitVec.getLsbD_ofNat, hbit, Bool.and_false]
  have hlen := xor_bit_toNat_of_clear _ hk hclear
  have hpos := Nat.two_pow_pos k
  rw [← payload_length_eq hp] at hlen
  exact answersCode_of_readFrame_error (holdsWire_flipped_length hp h hj)
    (readFrame_of_length_gt _ (by omega) (b0Version_packB0 _ f) ((b0Flags_packB0 _ f).symm ▸ hf))

/-- A length bit that was 1: the shortened frame is refused, or what is taken as its trailer is its checksum (rule
R165). -/
theorem flippedBit_of_length_set (hk : k < 8) (hf : flagsOk f = true) (hj : j = 2)
    (hbit : p.length.testBit k = true) :
    AnswersCode .decode s .checksumMismatch ∨
      (AnswersCode .decode s .ok ∧
        (wireImage (wireBody Config.supportedVersion f id p)).getD (3 + p.length - 2 ^ k) 0 ++
          (wireImage (wireBody Config.supportedVersion f id p)).getD (3 + p.length - 2 ^ k + 1) 0 =
        (let c := crc16 ((flipBit (wireBody Config.supportedVersion f id p) 2 k).take (3 + p.length - 2 ^ k))
         lowByte c ++ highByte c)) := by
  have hl := payload_length_eq hp
  have hset : (BitVec.ofNat 8 p.length).getLsbD k = true := by
    rw [BitVec.getLsbD_ofNat, hbit, Bool.and_true, decide_eq_true hk]
  have hlen := xor_bit_toNat_of_set _ hk hset
  have hwire := holdsWire_flipped_length hp h hj
  rw [← hl] at hlen
  have hle : (BitVec.ofNat 8 p.length ^^^ (1#8 <<< k)).toNat ≤ p.length := Nat.le.intro hlen
  rcases readFrame_of_length_le (id := id) (crc16 (wireBody Config.supportedVersion f id p)) hle
    (b0Version_packB0 _ f) ((b0Flags_packB0 _ f).symm ▸ hf) with hread | ⟨⟨g, hread⟩, hlow, hhigh⟩
  · exact .inl (answersCode_of_readFrame_error hwire hread)
  refine .inr ⟨answersCode_of_readFrame_ok hwire hread, ?_⟩
  have hindex : 3 + p.length - 2 ^ k = (BitVec.ofNat 8 p.length ^^^ (1#8 <<< k)).toNat + 3 := by omega
  have hbody : (flipBit (wireBody Config.supportedVersion f id p) 2 k).take (3 + p.length - 2 ^ k) =
      frameBody (packB0 Config.supportedVersion f) id (BitVec.ofNat 8 p.length ^^^ (1#8 <<< k))
        (p.take (BitVec.ofNat 8 p.length ^^^ (1#8 <<< k)).toNat) := by
    rw [hindex, ← frameBody_eq_wireBody _ f id hl]
    rfl
  rw [hbody, ← body_append_trailer, hindex]
  exact congrArg₂ (· ++ ·) hlow hhigh

end

/-- Settles O40, clause by clause. -/
theorem oneFlippedBitIsRefused : Obligations.OneFlippedBitIsRefused := fun _ _ _ _ _ _ hf hp hk h =>
  ⟨flippedBit_behind_header hp h hk hf, flippedBit_of_version hp h hk, flippedBit_of_flags_invalid hp h,
    flippedBit_of_flags_valid hp h hk, flippedBit_of_length_clear hp h hk hf, flippedBit_of_length_set hp h hk hf⟩

end Sys2Proof.Machine
end

section
/-! PROOFS. The source's operations as command sequences (rule R166): a load of any number of bytes and `DECODE`, and the
sequence that emits one frame. -/

namespace Sys2Proof.Machine

/-- A sequence that answers is followed by the next one. -/
theorem execAll_append_of_next {is : List Instr} {s t : State} (h : execAll is s = .next t) (js : List Instr) :
    execAll (is ++ js) s = execAll js t := by
  induction is generalizing s with
  | nil =>
    cases h
    rfl
  | cons i is ih =>
    cases hi : exec i s with
    | next u =>
      rw [execAll_cons_of_next hi] at h
      rw [List.cons_append, execAll_cons_of_next hi, ih h]
    | fault f => simp [execAll, hi] at h
    | refused r => simp [execAll, hi] at h

/-! ### Loading any number of bytes -/

/-- `BUFPUSH` on a full buffer, as a command (rule R151). -/
theorem exec_bufpush_of_full (b : Byte) {s : State} (h : s.cnt.toNat = 260) :
    exec (.bufpush b) s = .next (s.afterFailure .bufferFull 11) :=
  execBufpush_of_full b h

/-- Pushes to a full buffer change nothing but `ECODE` and the response (rules R151, R207). -/
theorem execAll_bufpush_of_full (bs : List Byte) {s : State} (h : s.cnt.toNat = 260) :
    ∃ e r, execAll (bs.map .bufpush) s = .next { s with ecode := e, resp := r } := by
  induction bs generalizing s with
  | nil => exact ⟨s.ecode, s.resp, rfl⟩
  | cons b bs ih =>
    obtain ⟨e, r, hrest⟩ := ih (s := s.afterFailure .bufferFull 11) h
    exact ⟨e, r, (execAll_cons_of_next (exec_bufpush_of_full b h) _).trans hrest⟩

/-- The state after a load of `m` that fits (rules R90, R151). -/
def State.bufLoaded (m : List Byte) (s : State) : State :=
  respond .ok 0 (s.withFill .buf (s.buf.writeAll 0 m) m.length)

/-- A load that fits leaves its bytes as the valid bytes of `BUF`. -/
theorem bufLoaded_holdsWire {m : List Byte} (s : State) (h : m.length ≤ 260) : (s.bufLoaded m).HoldsWire m :=
  ⟨(Nat.mod_eq_of_lt (lt_of_le_of_lt h (by decide))).symm, memory_holds_writeAll s.buf m⟩

/-- `BUFLOAD` of bytes that fit. -/
theorem execAll_bufload_of_le {m : List Byte} (s : State) (h : m.length ≤ 260) :
    execAll (expandPseudo .bufload m) s = .next (s.bufLoaded m) :=
  execAll_load (st := .buf) m s h

/-- `BUFLOAD` of more bytes goes on with the others on what the first left. -/
theorem execAll_bufload_append {x : List Byte} (y : List Byte) (s : State) (hx : x.length ≤ 260) :
    execAll (expandPseudo .bufload (x ++ y)) s = execAll (y.map .bufpush) (s.bufLoaded x) := by
  have hsplit : expandPseudo .bufload (x ++ y) = expandPseudo .bufload x ++ y.map .bufpush := by
    simp only [expandPseudo, List.map_append, List.append_assoc]
  rw [hsplit, execAll_append_of_next (execAll_bufload_of_le s hx)]

/-- `BUFLOAD` of any number of bytes loads the first 260 of them and changes nothing else but `ECODE` and the
response. -/
theorem execAll_bufload (m : List Byte) (s : State) :
    ∃ e r, execAll (expandPseudo .bufload m) s = .next { s.bufLoaded (m.take 260) with ecode := e, resp := r } := by
  by_cases hfits : m.length ≤ 260
  · rw [List.take_of_length_le hfits]
    exact ⟨_, _, execAll_bufload_of_le s hfits⟩
  · have hx : (m.take 260).length = 260 := List.length_take_of_le (Nat.le_of_not_le hfits)
    have hload := execAll_bufload_append (m.drop 260) s hx.le
    rw [List.take_append_drop] at hload
    obtain ⟨e, r, hpush⟩ := execAll_bufpush_of_full (m.drop 260) ((bufLoaded_holdsWire s hx.le).1.symm.trans hx)
    exact ⟨e, r, hload.trans hpush⟩

/-- The 261st `BUFPUSH` is `BufferFull` (rules R151, R166). -/
theorem execAll_bufload_take_succ {m : List Byte} (s : State) (h : 260 < m.length) :
    ∃ t, execAll (expandPseudo .bufload (m.take 261)) s = .next t ∧ t.resp = some ⟨.bufferFull, 0x0000⟩ ∧
      t.HoldsWire (m.take 260) := by
  have hx : (m.take 260).length = 260 := List.length_take_of_le h.le
  have hwire := bufLoaded_holdsWire s hx.le
  have hload := execAll_bufload_append [m[260]] s hx.le
  rw [List.take_append_getElem h] at hload
  have hpush := exec_bufpush_of_full m[260] (hwire.1.symm.trans hx)
  exact ⟨_, hload.trans (execAll_cons_of_next hpush []), rfl, hwire⟩

/-! ### `decode(bytes)` -/

/-- `DECODE` writes nothing in `BUF`, whatever it reads. -/
theorem afterReading_holdsWire {s : State} {m : List Byte} (r : Except Code Frame) (h : s.HoldsWire m) :
    (afterReading r s).HoldsWire m := by
  cases r with
  | error c => exact h
  | ok f => exact h

/-- Settles O55: a load leaves every register that `DECODE` does not write anew as it was, so the answer of `DECODE` is
the reading of the bytes loaded. -/
theorem loadAndDecodeIsTheSourceDecode : Obligations.LoadAndDecodeIsTheSourceDecode := by
  refine fun s m => ⟨execAll_bufload_take_succ s, ?_⟩
  obtain ⟨e, r, hload⟩ := execAll_bufload m s
  have hwire : State.HoldsWire { s.bufLoaded (m.take 260) with ecode := e, resp := r } (m.take 260) :=
    bufLoaded_holdsWire s (List.length_take_le 260 m)
  refine ⟨_, (execAll_append_of_next hload _).trans (execAll_cons_of_next (exec_decode hwire) []),
    afterReading_holdsWire _ hwire, ?_⟩
  cases hread : readFrame (m.take 260) with
  | error c => exact ⟨rfl, rfl, rfl, rfl, rfl, rfl, rfl⟩
  | ok f => exact ⟨rfl, rfl, rfl, rfl, loaded_holdsPayload (readFrame_payload_length_le hread) _, rfl⟩

/-! ### Emitting one frame -/

/-- `SETVER`, `SETFLG` and `SETID 0` of a frame to be emitted. -/
theorem execAll_setFields (s : State) (f : Flags) :
    execAll [.setver 0x00, .setflg (BitVec.ofNat 8 f.toNat), .setid 0x00] s =
      .next (respond .ok 0 { s with ver := Config.supportedVersion, flg := f, txid := 0x00 }) := by
  have hf := f.isLt
  have htoNat : (BitVec.ofNat 8 f.toNat).toNat = f.toNat := Nat.mod_eq_of_lt (by omega)
  have hflg : BitVec.ofNat 6 (BitVec.ofNat 8 f.toNat).toNat = f := by
    rw [htoNat, BitVec.ofNat_toNat, BitVec.setWidth_eq]
  rw [execAll_cons_of_next (exec_setver_of_lt (by decide) s),
    execAll_cons_of_next (exec_setflg_of_lt (by rwa [htoNat]) _), execAll_cons_of_next (exec_setid _ _), hflg]
  rfl

/-- Settles O56: the fields set and the payload loaded, `ENCODE` writes the wire image of that frame. -/
theorem sourceEncodeSequenceEmitsTheFrame : Obligations.SourceEncodeSequenceEmitsTheFrame := by
  intro s f p hp
  obtain ⟨t, hload, hpayload, ht⟩ :=
    (loadsFillTheStores (respond .ok 0 { s with ver := Config.supportedVersion, flg := f, txid := 0x00 }) p).1 hp
  have hver : t.ver = Config.supportedVersion := congrArg State.ver ht
  have hflg : t.flg = f := congrArg State.flg ht
  have htxid : t.txid = 0x00 := congrArg State.txid ht
  have hwire := encoded_holdsWire hpayload
  have hcsum := encoded_csum p t
  rw [hver, hflg, htxid] at hwire hcsum
  refine ⟨encoded p t, ?_, encoded_resp p t, hver, hflg, htxid, hpayload, hcsum, hwire⟩
  rw [execAll_append_of_next ((execAll_append_of_next (execAll_setFields s f) _).trans hload),
    execAll_cons_of_next (exec_encode hpayload)]
  rfl

end Sys2Proof.Machine
end

section
/-! PROOFS. The system commands (rules R190 to R193): the words that are none of them, and for each command, once, what
it answers. -/

namespace Sys2Proof.Machine

/-! ### Words that are no command -/

/-- An operand other than zero makes the word of a format `N` opcode illegal (rule R88): the opcode leaves only its own
row, and that row selects operand zero alone. -/
theorem decode_ne_ok_of_format_n {m : Mnemonic} (hformat : m.format = .n) {k : Byte} (hk : k ≠ 0x00) (i : Instr) :
    decode (m.opcode ++ k) ≠ .ok i := by
  intro h
  obtain ⟨n, hsel, -⟩ := decode_eq_ok_iff_row.1 h
  obtain ⟨hopcode, hoperand⟩ := (row_selects_iff n _).1 hsel
  rw [Laws.opcodeField_append] at hopcode
  rw [Laws.operandField_append, ← opcode_injective hopcode] at hoperand
  exact hk (hoperand hformat)

/-- The word `0xFFFF` is neither a format `N` word nor one of a format `I` opcode (rule R88). -/
theorem decode_all_ones_ne_ok (i : Instr) : decode 0xFFFF ≠ .ok i := by
  intro h
  have hlegal := decode_isOk_iff.1 ⟨i, h⟩
  have hillegal : ¬ ((0xFFFF : Word).toNat ∈ formatNWords ∨ (0xFFFF : Word).toNat / 256 ∈ formatIOpcodes) := by decide
  exact hillegal hlegal

/-! ### The commands -/

/-- `NOP` (rule R190). -/
theorem exec_nop (s : State) : exec .nop s = .next (respond .ok 0 s) := rfl

/-- `RESET` (rule R191). -/
theorem exec_reset (s : State) : exec .reset s = .next (respond .ok 0 (resetBlock s)) := rfl

/-- `CLRERR` (rule R192). -/
theorem exec_clrerr (s : State) : exec .clrerr s = .next (respond .ok 0 { s with ecode := 0 }) := rfl

/-- `RDSTAT` answers `ECODE` as a number, the implemented bits of `STATUS` (rule R193). -/
theorem exec_rdstat (s : State) : exec .rdstat s = .next (respond .ok (BitVec.ofNat 16 s.ecode.toNat) s) :=
  answer_zext16 s.ecode s

/-- Settles O11: the state is the reset block with the response given, and the word with an operand is one of format
`N`. -/
theorem resetCommandLeavesTheResetValues : Obligations.ResetCommandLeavesTheResetValues :=
  ⟨decode_eq_ok_iff.2 rfl, fun _ i hk => decode_ne_ok_of_format_n (m := .reset) rfl hk i,
    fun s => ⟨respond .ok 0 (resetBlock s), exec_reset s, resetBlock_crc s, resetBlock_ver s, resetBlock_flg s,
      resetBlock_txid s, resetBlock_len s, resetBlock_csum s, resetBlock_cnt s, resetBlock_ecode s,
      respond_resp .ok 0 (resetBlock s), resetBlock_pending s⟩⟩

/-- Settles O13: the three words are the encoder's, the illegal ones are those of format `N` with an operand, and each
command does what its lemma says. -/
theorem nopClrerrRdstatResults : Obligations.NopClrerrRdstatResults :=
  ⟨decode_eq_ok_iff.2 rfl, decode_eq_ok_iff.2 rfl, decode_eq_ok_iff.2 rfl,
    fun _ i hk => ⟨decode_ne_ok_of_format_n (m := .nop) rfl hk i, decode_ne_ok_of_format_n (m := .clrerr) rfl hk i,
      decode_ne_ok_of_format_n (m := .rdstat) rfl hk i⟩,
    decode_all_ones_ne_ok, fun s => ⟨exec_nop s, exec_clrerr s, exec_rdstat s⟩⟩

end Sys2Proof.Machine
end

section
/-! PROOFS. Failures (rules R201, R202, R207, R210, R211). How a command ends is said once, `exec_ends`: every command
either takes a failure that rule R201 lets it raise, on the state before it, or succeeds. The rules about failure entry,
about who raises what and about the keeping of `ECODE` are each read off it. -/

namespace Sys2Proof.Machine

/-- Settles O51: a step from a state with the invariant is answered, which is the first half of `step_answers_inv`. -/
theorem stepNeverStops : Obligations.StepNeverStops := by
  intro s h
  obtain ⟨t, hstep, -⟩ := step_answers_inv h
  exact ⟨t, hstep⟩

/-- Settles O8: an empty stream leads into the idle branch of the step. -/
theorem idleStepChangesNothing : Obligations.IdleStepChangesNothing := by
  intro s hidle
  simp only [step, hidle]

/-- Settles O42: each number is a line of `codeBits`. -/
theorem outcomeCodeNumbers : Obligations.OutcomeCodeNumbers :=
  ⟨rfl, rfl, rfl, rfl, rfl, rfl, rfl, rfl, rfl, rfl, rfl, rfl⟩

/-! ### How a command ends -/

/-- The commands that can end in a code other than `OK` (rule R201, column "raised by", for the words that are
commands). -/
def raisedBy : Code → List Mnemonic
  | .badOperand => [.setver, .setflg, .rdpl, .rdbuf, .rdbufh]
  | .bufferFull => [.plpush, .bufpush]
  | .truncated | .unsupportedVersion => [.decode, .tag]
  | .invalidFlags | .checksumMismatch => [.decode]
  | _ => []

/-- A code that some command raises is a failure. -/
theorem ne_ok_of_mem_raisedBy {m : Mnemonic} {c : Code} (h : m ∈ raisedBy c) : c ≠ .ok := by
  rintro rfl
  exact List.not_mem_nil h

/-- Command `i` has taken a failure that it may raise: failure entry on the state before it. -/
def Failed (i : Instr) (s t : State) : Prop :=
  ∃ c, i.mnemonic ∈ raisedBy c ∧ t = takeFailure c s

/-- Command `i` has succeeded: it is answered `OK`, and it has kept `ECODE` unless it is there to clear it. -/
def Succeeded (i : Instr) (s t : State) : Prop :=
  (∃ d, t.resp = some ⟨.ok, d⟩) ∧ (t.ecode = s.ecode ∨ i = .reset ∨ i = .clrerr)

section
variable {i : Instr} {s t : State}

/-- A response `OK` given on a state with the `ECODE` of before. -/
theorem succeeded_respond (i : Instr) {u : State} (d : Word) (h : u.ecode = s.ecode) :
    Succeeded i s (respond .ok d u) :=
  ⟨⟨d, rfl⟩, .inl h⟩

/-- A command that may raise `BadOperand` and has its operand checked fails so or goes on with the operand. -/
theorem ends_of_orBadOperand {α : Type} {r : Option α} {k : α → Result} (hi : i.mnemonic ∈ raisedBy .badOperand)
    (h : orBadOperand r s k = .next t) (hk : ∀ a, k a = .next t → Succeeded i s t) : Failed i s t ∨ Succeeded i s t := by
  obtain ⟨-, rfl⟩ | ⟨a, -, h⟩ := orBadOperand_eq_next_iff.1 h
  · exact .inl ⟨_, hi, rfl⟩
  · exact .inr (hk a h)

/-- A byte read and answered. -/
theorem succeeded_of_readByte_answer {st : Store} {k : Nat}
    (h : orFault (readByte st k s) (fun b => answer (zext16 b) s) = .next t) : Succeeded i s t := by
  obtain ⟨b, -, h⟩ := orFault_eq_next_iff.1 h
  cases h
  exact succeeded_respond i _ rfl

/-- Every command that answers a next state has failed or succeeded. -/
theorem exec_ends (h : exec i s = .next t) : Failed i s t ∨ Succeeded i s t := by
  cases i with
  | nop | crcinit | crcbyte | setid | setb0 | plclr | bufclr | rdstat | rdcrc | rdver | rdflg | rdid | rdlen | rdcsum
  | rdclass | rdb0 | rdcnt =>
    cases h
    exact .inr (succeeded_respond _ _ rfl)
  | reset =>
    cases h
    exact .inr ⟨⟨_, rfl⟩, .inr (.inl rfl)⟩
  | clrerr =>
    cases h
    exact .inr ⟨⟨_, rfl⟩, .inr (.inr rfl)⟩
  | setver | setflg =>
    refine ends_of_orBadOperand (by simp [raisedBy, Instr.mnemonic]) h fun _ hdone => ?_
    cases hdone
    exact succeeded_respond _ _ rfl
  | rdpl | rdbuf | rdbufh =>
    exact ends_of_orBadOperand (by simp [raisedBy, Instr.mnemonic]) h fun _ hread => succeeded_of_readByte_answer hread
  | plpush =>
    obtain rfl | rfl := execPlpush_inv h
    · exact .inl ⟨.bufferFull, by simp [raisedBy, Instr.mnemonic], rfl⟩
    · exact .inr (succeeded_respond _ _ rfl)
  | bufpush =>
    obtain rfl | rfl := execBufpush_inv h
    · exact .inl ⟨.bufferFull, by simp [raisedBy, Instr.mnemonic], rfl⟩
    · exact .inr (succeeded_respond _ _ rfl)
  | encode =>
    obtain ⟨p, -, -, rfl⟩ := execEncode_inv h
    exact .inr (succeeded_respond _ _ rfl)
  | decode =>
    obtain ⟨c, hc, rfl⟩ | ⟨b0, id, l, p, -, -, -, -, -, rfl⟩ := execDecode_inv h
    · have hraised : ∀ c ∈ [Code.truncated, .unsupportedVersion, .invalidFlags, .checksumMismatch],
          Mnemonic.decode ∈ raisedBy c := by decide
      exact .inl ⟨c, hraised c hc, rfl⟩
    · exact .inr (succeeded_respond _ _ rfl)
  | tag =>
    obtain ⟨c, hc, rfl⟩ | ⟨body, -, -, -, -, rfl⟩ := execTag_inv h
    · have hraised : ∀ c ∈ [Code.truncated, .unsupportedVersion], Mnemonic.tag ∈ raisedBy c := by decide
      exact .inl ⟨c, hraised c hc, rfl⟩
    · exact .inr (succeeded_respond _ _ rfl)

/-- A command that has failed is answered the code it raises, and one that has succeeded is answered `OK`. -/
theorem exec_code_ok_or_raisedBy {r : Response} (h : exec i s = .next t) (hr : t.resp = some r) :
    r.code = .ok ∨ i.mnemonic ∈ raisedBy r.code := by
  obtain ⟨c, hc, rfl⟩ | ⟨⟨d, hd⟩, -⟩ := exec_ends h
  · cases hr
    exact .inr hc
  · cases hd.symm.trans hr
    exact .inl rfl

/-- Only `CLRERR` and `RESET` take a recorded failure away (rule R210): a later failure finds `ECODE` taken. -/
theorem exec_keeps_ecode (h : exec i s = .next t) (hs : s.ecode ≠ 0) (hclrerr : i ≠ .clrerr) (hreset : i ≠ .reset) :
    t.ecode = s.ecode := by
  obtain ⟨c, -, rfl⟩ | ⟨-, hkept | rfl | rfl⟩ := exec_ends h
  · rw [takeFailure_ecode, if_neg hs]
  · exact hkept
  · exact absurd rfl hreset
  · exact absurd rfl hclrerr

end

/-- Settles O45: with `OK` there is no failure, and with any other code the command stands in the code's line of
`raisedBy`. -/
theorem failuresByCommand : Obligations.FailuresByCommand := by
  intro i s t r h hr
  obtain hok | hraised := exec_code_ok_or_raisedBy h hr
  · simp [hok]
  · have hline {c : Code} (hc : r.code = c) : i.mnemonic ∈ raisedBy c := hc ▸ hraised
    exact ⟨hline, hline, hline, hline, fun hc => List.mem_singleton.1 (hline hc),
      fun hc => List.mem_singleton.1 (hline hc), fun hc => List.not_mem_nil (hline hc)⟩

/-! ### Failure entry -/

/-- A command word that answers a next state has taken a failure, on the state before it, or is answered `OK` and has
kept `ECODE` unless it is the word of `RESET` or of `CLRERR`. -/
theorem stepCommand_ends {w : Word} {s t : State} (h : stepCommand w s = .next t) :
    (∃ c, c ≠ .ok ∧ t = takeFailure c s) ∨
      (∃ d, t.resp = some ⟨.ok, d⟩) ∧ (t.ecode = s.ecode ∨ w = 0x0100 ∨ w = 0x0200) := by
  by_cases hlegal : ∃ i, decode w = .ok i
  · obtain ⟨i, hi⟩ := hlegal
    rw [stepCommand_of_decode_eq_ok hi] at h
    obtain ⟨c, hc, rfl⟩ | ⟨hok, hecode⟩ := exec_ends h
    · exact .inl ⟨c, ne_ok_of_mem_raisedBy hc, rfl⟩
    · have hword : encode i = w := decode_eq_ok_iff.1 hi
      refine .inr ⟨hok, hecode.imp_right fun hclears => ?_⟩
      obtain rfl | rfl := hclears
      · exact .inl hword.symm
      · exact .inr hword.symm
  · rw [stepCommand_of_decode_ne_ok (not_exists.1 hlegal)] at h
    cases h
    exact .inl ⟨.illegalCommand, by decide, rfl⟩

/-- Settles O43: what is answered with a failure is failure entry with that code, and what is answered `OK` keeps
`ECODE` as `stepCommand_ends` says. -/
theorem failureEntry : Obligations.FailureEntry := by
  intro w s t r h hr
  obtain ⟨c, hc, rfl⟩ | ⟨⟨d, hd⟩, hecode⟩ := stepCommand_ends h
  · cases hr
    exact ⟨fun _ => rfl, fun hok => absurd hok hc⟩
  · cases hd.symm.trans hr
    exact ⟨fun hne => absurd rfl hne, fun _ => hecode⟩

end Sys2Proof.Machine
end

section
/-! PROOFS. `ECODE` alters no command but `RDSTAT` (rule R210). A command is run twice, on a state and on the state with
another `ECODE`, and both outcomes are compared with `ECODE` passed over; there is one rule for each shared operation,
and a command is settled by following its definition with them. No check and no store access looks at `ECODE`, so both
runs take the same branches. -/

namespace Sys2Proof.Machine

/-- The state with another value of `ECODE`. -/
def State.withEcode (e : BitVec 4) (s : State) : State :=
  { s with ecode := e }

/-- An outcome with `ECODE` passed over. -/
def ignoreEcode : Result → Result
  | .next t => .next (t.withEcode 0)
  | .fault f => .fault f
  | .refused r => .refused r

/-- Two outcomes that differ in `ECODE` at most. -/
def AgreeUpToEcode (r q : Result) : Prop :=
  ignoreEcode r = ignoreEcode q

/-- The outcome that agrees with a next state is a next state, and it is that state but for `ECODE`. -/
theorem exists_next_of_agreeUpToEcode {r : Result} {t : State} (h : AgreeUpToEcode r (.next t)) :
    ∃ u, r = .next u ∧ u.withEcode t.ecode = t := by
  cases r with
  | next u =>
    have hsame : u.withEcode 0 = t.withEcode 0 := Host.Outcome.next.inj h
    have hrestored : (u.withEcode 0).withEcode t.ecode = (t.withEcode 0).withEcode t.ecode := by rw [hsame]
    exact ⟨u, rfl, hrestored⟩
  | fault f => cases h
  | refused r => cases h

/-! ### One rule per shared operation -/

section
variable {s : State} {e : BitVec 4}

theorem agree_done {t u : State} (h : t.withEcode 0 = u.withEcode 0) : AgreeUpToEcode (done t) (done u) :=
  congrArg (fun v => Host.Outcome.next (respond .ok 0 v)) h

theorem agree_answer (v : Word) : AgreeUpToEcode (answer v (s.withEcode e)) (answer v s) := rfl

theorem agree_fail (c : Code) : AgreeUpToEcode (fail c (s.withEcode e)) (fail c s) := rfl

theorem agree_ite {p : Prop} [Decidable p] {r r' q q' : Result} (hpos : AgreeUpToEcode r q)
    (hneg : AgreeUpToEcode r' q') : AgreeUpToEcode (if p then r else r') (if p then q else q') := by
  split
  · exact hpos
  · exact hneg

theorem agree_orFault {α : Type} {r q : Except Fault α} {k k' : α → Result} (hr : r = q)
    (hk : ∀ a, AgreeUpToEcode (k a) (k' a)) : AgreeUpToEcode (orFault r k) (orFault q k') := by
  subst hr
  cases r with
  | ok a => exact hk a
  | error f => rfl

theorem agree_orBadOperand {α : Type} (r : Option α) {k k' : α → Result} (hk : ∀ a, AgreeUpToEcode (k a) (k' a)) :
    AgreeUpToEcode (orBadOperand r (s.withEcode e) k) (orBadOperand r s k') := by
  cases r with
  | none => exact agree_fail _
  | some a => exact hk a

/-- Neither store holds `ECODE`. -/
theorem storeOf_withEcode (st : Store) : storeOf st (s.withEcode e) = storeOf st s := by
  cases st <;> rfl

theorem setStore_withEcode (st : Store) (m : Memory) :
    setStore st m (s.withEcode e) = (setStore st m s).withEcode e := by
  cases st <;> rfl

theorem readByte_withEcode (st : Store) (i : Nat) : readByte st i (s.withEcode e) = readByte st i s :=
  readByte_congr (congrArg (·.read i) (storeOf_withEcode st))

theorem readBytes_withEcode (st : Store) (i n : Nat) : readBytes st i n (s.withEcode e) = readBytes st i n s :=
  readBytes_congr fun j _ => congrArg (·.read j) (storeOf_withEcode st)

theorem agree_readByte {st : Store} {i : Nat} {k k' : Byte → Result} (hk : ∀ b, AgreeUpToEcode (k b) (k' b)) :
    AgreeUpToEcode (orFault (readByte st i (s.withEcode e)) k) (orFault (readByte st i s) k') :=
  agree_orFault (readByte_withEcode st i) hk

theorem agree_readBytes {st : Store} {i n : Nat} {k k' : List Byte → Result}
    (hk : ∀ bs, AgreeUpToEcode (k bs) (k' bs)) :
    AgreeUpToEcode (orFault (readBytes st i n (s.withEcode e)) k) (orFault (readBytes st i n s) k') :=
  agree_orFault (readBytes_withEcode st i n) hk

/-- A byte written succeeds or faults in both runs, and what follows finds the same state but for `ECODE`. -/
theorem agree_writeByte {st : Store} {i : Nat} {b : Byte} {k k' : State → Result}
    (hk : ∀ t : State, AgreeUpToEcode (k (t.withEcode e)) (k' t)) :
    AgreeUpToEcode (orFault (writeByte st i b (s.withEcode e)) k) (orFault (writeByte st i b s) k') := by
  unfold writeByte
  split
  · simp only [orFault_ok, storeOf_withEcode, setStore_withEcode]
    exact hk _
  · rfl

/-- A run of bytes is written byte by byte. -/
theorem orFault_writeBytes_cons (st : Store) (i : Nat) (b : Byte) (bs : List Byte) (s : State) (k : State → Result) :
    orFault (writeBytes st i (b :: bs) s) k =
      orFault (writeByte st i b s) fun t => orFault (writeBytes st (i + 1) bs t) k := by
  rw [writeBytes]
  cases writeByte st i b s <;> rfl

theorem agree_writeBytes {st : Store} {i : Nat} {bs : List Byte} {k k' : State → Result}
    (hk : ∀ t : State, AgreeUpToEcode (k (t.withEcode e)) (k' t)) :
    AgreeUpToEcode (orFault (writeBytes st i bs (s.withEcode e)) k) (orFault (writeBytes st i bs s) k') := by
  induction bs generalizing i s with
  | nil => exact hk s
  | cons b bs ih =>
    rw [orFault_writeBytes_cons, orFault_writeBytes_cons]
    exact agree_writeByte fun _ => ih

/-! ### The commands that touch a store -/

theorem execPlpush_agree (k : Byte) : AgreeUpToEcode (execPlpush k (s.withEcode e)) (execPlpush k s) :=
  agree_ite (agree_fail _) (agree_writeByte fun _ => agree_done rfl)

theorem execBufpush_agree (k : Byte) : AgreeUpToEcode (execBufpush k (s.withEcode e)) (execBufpush k s) :=
  agree_ite (agree_fail _) (agree_writeByte fun _ => agree_done rfl)

/-- A read of one byte behind a checked operand (rules R131, R153, R154). -/
theorem agree_indexedRead (idx : Option Nat) (st : Store) :
    AgreeUpToEcode
      (orBadOperand idx (s.withEcode e) fun i =>
        orFault (readByte st i (s.withEcode e)) fun b => answer (zext16 b) (s.withEcode e))
      (orBadOperand idx s fun i => orFault (readByte st i s) fun b => answer (zext16 b) s) :=
  agree_orBadOperand idx fun _ => agree_readByte fun _ => agree_answer _

theorem execEncode_agree : AgreeUpToEcode (execEncode (s.withEcode e)) (execEncode s) :=
  agree_readBytes fun _ => agree_writeBytes fun _ => agree_done rfl

theorem decodeExtent_agree (b0 id l : Byte) :
    AgreeUpToEcode (decodeExtent b0 id l (s.withEcode e)) (decodeExtent b0 id l s) :=
  agree_ite (agree_fail _) <|
    agree_readBytes fun _ => agree_readByte fun _ => agree_readByte fun _ =>
      agree_ite (agree_fail _) (agree_writeBytes fun _ => agree_done rfl)

theorem execDecode_agree : AgreeUpToEcode (execDecode (s.withEcode e)) (execDecode s) :=
  agree_ite (agree_fail _) <|
    agree_readByte fun b0 => agree_readByte fun id => agree_readByte fun l =>
      agree_ite (agree_fail _) (agree_ite (agree_fail _) (decodeExtent_agree b0 id l))

theorem execTag_agree (k : Byte) : AgreeUpToEcode (execTag k (s.withEcode e)) (execTag k s) :=
  agree_ite (agree_fail _) <|
    agree_readByte fun _ => agree_ite (agree_fail _) <|
      agree_writeByte fun _ => agree_readBytes fun _ => agree_writeBytes fun _ => agree_done rfl

/-! ### Every command -/

/-- Every command but `RDSTAT`: one that touches no store computes from registers other than `ECODE`. -/
theorem exec_agree {i : Instr} (hi : i ≠ .rdstat) : AgreeUpToEcode (exec i (s.withEcode e)) (exec i s) := by
  cases i with
  | rdstat => exact absurd rfl hi
  | nop | reset | clrerr | crcinit | crcbyte | setid | setb0 | plclr | bufclr => exact agree_done rfl
  | rdcrc | rdver | rdflg | rdid | rdlen | rdcsum | rdclass | rdb0 | rdcnt => exact agree_answer _
  | setver | setflg => exact agree_orBadOperand _ fun _ => agree_done rfl
  | rdpl | rdbuf | rdbufh => exact agree_indexedRead _ _
  | plpush k => exact execPlpush_agree k
  | bufpush k => exact execBufpush_agree k
  | encode => exact execEncode_agree
  | decode => exact execDecode_agree
  | tag k => exact execTag_agree k

end

/-- Settles O46: the run with another `ECODE` agrees with the run that answered, and `ECODE` itself is kept as
`exec_keeps_ecode` says. -/
theorem ecodeNeverAltersACommand : Obligations.EcodeNeverAltersACommand := by
  refine ⟨fun i s t e hi h => ?_, fun i s t h hs hclrerr hreset => exec_keeps_ecode h hs hclrerr hreset⟩
  have hagree : AgreeUpToEcode (exec i (s.withEcode e)) (exec i s) := exec_agree hi
  rw [h] at hagree
  exact exists_next_of_agreeUpToEcode hagree

end Sys2Proof.Machine
end

section
/-! PROOFS. The reset input (rules R230, R231): once, what `step` does in the case that takes it, and that giving a
response is all by which the command `RESET` differs from it. -/

namespace Sys2Proof.Machine

/-- With the reset input presented, the step takes it from the host's stream and resets the block (rule R230). -/
theorem step_of_pending_resetInput {s : State} {rest : List HostEvent} (h : s.pending = .resetInput :: rest) :
    step s = .next (resetBlock { s with pending := rest }) := by
  simp only [step, h]

/-- The reset block with a response given is, that response taken away, the reset block (rules R191, R230). -/
theorem respond_resetBlock_without_resp (c : Code) (d : Word) (s : State) :
    { respond c d (resetBlock s) with resp := none } = resetBlock s := rfl

/-- Settles O9: the step resets the block, and `RESET` resets it and responds (`exec_reset`). -/
theorem resetInputHasTheEffectOfReset : Obligations.ResetInputHasTheEffectOfReset := by
  intro s rest hpending
  have hsame := respond_resetBlock_without_resp .ok 0 { s with pending := rest }
  have hreset : resetBlock { s with pending := rest } = { State.reset with pending := rest } := rfl
  exact ⟨_, _, step_of_pending_resetInput hpending, exec_reset _, hsame.symm, hreset⟩

end Sys2Proof.Machine
end

section
/-! PROOFS. The laws of the checksum (rule R108 laws 2 to 6, R237). Linearity and the bijection are those of one step,
carried over a sequence; the residue is zero because a register fed its own two bytes, high first, shifts all of itself
out. -/

namespace Sys2Proof.Machine

/-! ### Linearity -/

/-- Feeding is linear over exclusive or, byte by byte, for sequences of equal length. -/
theorem crcFeed_xor (c c' : Word) {x y : List Byte} (h : x.length = y.length) :
    crcFeed (c ^^^ c') (List.zipWith (fun a b => a ^^^ b) x y) = crcFeed c x ^^^ crcFeed c' y := by
  induction x generalizing y c c' with
  | nil =>
    cases y with
    | nil => rfl
    | cons b y => cases h
  | cons a x ih =>
    cases y with
    | nil => cases h
    | cons b y =>
      calc crcFeed (crcStep (c ^^^ c') (a ^^^ b)) (List.zipWith (fun a b => a ^^^ b) x y)
          _ = crcFeed (crcStep c a ^^^ crcStep c' b) (List.zipWith (fun a b => a ^^^ b) x y) := by rw [crcStep_xor]
          _ = crcFeed (crcStep c a) x ^^^ crcFeed (crcStep c' b) y := ih _ _ (Nat.succ.inj h)

/-- Settles O18: the step is linear, and a checksum feeds from 0, which is `0 ^^^ 0`. -/
theorem crcIsLinear : Obligations.CrcIsLinear :=
  ⟨crcStep_xor, fun _ _ h => crcFeed_xor 0 0 h⟩

/-! ### Zero bytes -/

/-- Zero stays zero, by linearity: the step from 0 with 0 is its own exclusive or with itself. -/
theorem crcStep_zero : crcStep 0x0000 0x00 = 0x0000 :=
  calc crcStep 0x0000 0x00
    _ = crcStep 0x0000 0x00 ^^^ crcStep 0x0000 0x00 := crcStep_xor 0x0000 0x0000 0x00 0x00
    _ = 0x0000 := BitVec.xor_self

theorem crc16_replicate_zero (n : Nat) : crc16 (List.replicate n 0x00) = 0x0000 := by
  induction n with
  | zero => rfl
  | succ n ih =>
    calc crc16 (List.replicate (n + 1) 0x00)
        _ = crcFeed (crcStep 0x0000 0x00) (List.replicate n 0x00) := rfl
        _ = crc16 (List.replicate n 0x00) := by rw [crcStep_zero]; rfl
        _ = 0x0000 := ih

/-- Settles O19: after leading zero bytes the register holds what a checksum starts with. -/
theorem crcOfZeroBytes : Obligations.CrcOfZeroBytes := by
  refine ⟨crcStep_zero, fun n m => ⟨crc16_replicate_zero n, ?_⟩⟩
  rw [crc16_append, crc16_replicate_zero]
  rfl

/-! ### Nothing is lost -/

/-- Settles O20: a step that keeps accumulators apart also reaches every value, since there are finitely many. -/
theorem crcStepIsABijection : Obligations.CrcStepIsABijection :=
  ⟨fun d => Finite.injective_iff_bijective.1 (crcBit_left_injective d),
    fun b => Finite.injective_iff_bijective.1 (crcStep_left_injective b)⟩

/-- Settles O21: the statement is `crc16_flipBit_ne`. -/
theorem crcSeesEveryFlippedBit : Obligations.CrcSeesEveryFlippedBit :=
  fun _ _ _ hj hk => crc16_flipBit_ne hj hk

/-! ### The residue -/

/-- A register moved up by a byte has its low byte at the top. -/
theorem highByte_shiftLeft (c : Word) : highByte (c <<< 8) = lowByte c := by
  refine BitVec.eq_of_getLsbD_eq fun k hk => ?_
  rw [highByte_getLsbD _ hk, BitVec.getLsbD_shiftLeft, lowByte, BitVec.getLsbD_extractLsb']
  simp [hk, show 8 + k < 16 by omega]

/-- A register fed its own two bytes, high first, has shifted all of itself out. -/
theorem crcFeed_own_bytes (c : Word) : crcFeed c [highByte c, lowByte c] = 0x0000 :=
  calc crcFeed c [highByte c, lowByte c]
    _ = crcStep (crcStep c (highByte c)) (lowByte c) := rfl
    _ = crcStep (c <<< 8) (highByte (c <<< 8)) := by rw [crcStep_highByte, highByte_shiftLeft]
    _ = c <<< 8 <<< 8 := crcStep_highByte _
    _ = 0x0000 := by rw [← BitVec.shiftLeft_add, BitVec.shiftLeft_eq_zero (by decide)]; rfl

/-- In the wire's order, low byte first, two sequences already leave different residues (rule R237). -/
theorem crc16_wireImage_ne : crc16 (wireImage []) ≠ crc16 (wireImage [0x01]) := by
  decide +kernel

/-- Settles O22: high byte first by `crcFeed_own_bytes`; low byte first no constant can be both residues of
`crc16_wireImage_ne`. -/
theorem crcResidue : Obligations.CrcResidue := by
  refine ⟨fun m => ?_, fun c => ?_⟩
  · rw [← highByte_eq, ← lowByte_eq, crc16_append, crcFeed_own_bytes]
  · by_cases hc : crc16 (wireImage []) = c
    · exact ⟨[0x01], hc ▸ crc16_wireImage_ne.symm⟩
    · exact ⟨[], hc⟩

end Sys2Proof.Machine
end

section
/-! PROOFS. Commands are idempotent (rule R58). `RepeatedBy t r q` compares a command's two runs, from the state before
it and from the state `t` it answered; there is one rule for each shared operation, and a command is settled by
following its definition with them. What it turns on is that a command leaves alone what decides its own course: both
runs read the same and take the same branches, and what they write they write twice. -/

namespace Sys2Proof.Machine

/-! ### The read commands -/

/-- A read of one byte behind a checked operand (rules R131, R153, R154): refused, or answered. -/
theorem indexedRead_inv {idx : Option Nat} {st : Store} {s t : State}
    (h : orBadOperand idx s (fun k => orFault (readByte st k s) fun b => answer (zext16 b) s) = .next t) :
    t = takeFailure .badOperand s ∨ ∃ v, t = respond .ok v s := by
  obtain ⟨-, rfl⟩ | ⟨k, -, h⟩ := orBadOperand_eq_next_iff.1 h
  · exact .inl rfl
  · obtain ⟨b, -, h⟩ := orFault_eq_next_iff.1 h
    cases h
    exact .inr ⟨_, rfl⟩

/-- What a read command can do (rules R86, R201): refuse its operand, or answer a value. -/
theorem exec_read_inv {i : Instr} {s t : State} (hi : i.mnemonic ∈ readCommands) (h : exec i s = .next t) :
    t = takeFailure .badOperand s ∨ ∃ v, t = respond .ok v s := by
  cases i with
  | rdstat | rdcrc | rdver | rdflg | rdid | rdlen | rdcsum | rdclass | rdb0 | rdcnt =>
    cases h
    exact .inr ⟨_, rfl⟩
  | rdpl | rdbuf | rdbufh => exact indexedRead_inv h
  | nop | reset | clrerr | crcinit | crcbyte | setver | setflg | setid | setb0 | plclr | plpush | bufclr | bufpush
  | encode | decode | tag => exact absurd hi (by simp [readCommands, Instr.mnemonic])

/-- A read changes nothing but its response and, if refused, `ECODE`. -/
theorem exec_read_frame {i : Instr} {s t : State} (hi : i.mnemonic ∈ readCommands) (h : exec i s = .next t) :
    t = { s with ecode := t.ecode, resp := t.resp } ∧ (t.resp.map (·.code) = some .ok → t.ecode = s.ecode) := by
  obtain rfl | ⟨v, rfl⟩ := exec_read_inv hi h
  · exact ⟨rfl, fun hok => nomatch hok⟩
  · exact ⟨rfl, fun _ => rfl⟩

/-! ### Two runs of a command -/

/-- If the first run, with outcome `r`, answered `t`, then the second, with outcome `q`, answers a state that a host
cannot tell from `t`. -/
def RepeatedBy (t : State) (r q : Result) : Prop :=
  r = .next t → ∃ u, q = .next u ∧ u.SameVisible t

/-- A failure taken a second time finds in `ECODE` what the first has left there (rule R207). -/
theorem sameVisible_takeFailure_twice (c : Code) (s : State) :
    (takeFailure c (takeFailure c s)).SameVisible (takeFailure c s) := by
  have hecode : (takeFailure c (takeFailure c s)).ecode = (takeFailure c s).ecode := by
    by_cases hfree : s.ecode = 0
    · simp only [takeFailure_ecode, if_pos hfree, ite_self]
    · simp only [takeFailure_ecode, if_neg hfree]
  exact { sameVisible_refl (takeFailure c s) with ecode := hecode }

/-- A run written into a store that has just taken it: every byte reads as before. -/
theorem memory_read_writeAll_again {m n : Memory} {i : Nat} {bs : List Byte} (h : m.writeAll i bs = n) (j : Nat) :
    (n.writeAll i bs).read j = n.read j := by
  subst h
  exact memory_read_writeAll_congr bs fun hout => memory_read_writeAll_outside m (by omega)

/-- Likewise a byte and then a run, whether or not the run covers the byte. -/
theorem memory_read_write_writeAll_again {m n : Memory} {k i : Nat} {b : Byte} {bs : List Byte}
    (h : (m.write k b).writeAll i bs = n) (j : Nat) : ((n.write k b).writeAll i bs).read j = n.read j := by
  subst h
  refine memory_read_writeAll_congr bs fun hout => memory_read_write_congr b fun hj => ?_
  exact (memory_read_writeAll_outside _ (by omega)).trans (memory_read_write_other m b hj)

/-! ### One rule per shared operation -/

section
variable {s t : State}

theorem repeatedBy_answer (v : Word) : RepeatedBy t (answer v s) (answer v t) := by
  rintro ⟨⟩
  exact ⟨_, rfl, sameVisible_refl _⟩

theorem repeatedBy_fail (c : Code) : RepeatedBy t (fail c s) (fail c t) := by
  rintro ⟨⟩
  exact ⟨_, rfl, sameVisible_takeFailure_twice c s⟩

theorem repeatedBy_done {v w : State} (h : respond .ok 0 v = t → (respond .ok 0 w).SameVisible t) :
    RepeatedBy t (done v) (done w) :=
  fun hv => ⟨_, rfl, h (Host.Outcome.next.inj hv)⟩

theorem repeatedBy_ite {p : Prop} [Decidable p] {r r' q q' : Result} (hpos : RepeatedBy t r q)
    (hneg : ¬p → RepeatedBy t r' q') : RepeatedBy t (if p then r else r') (if p then q else q') := by
  split
  · exact hpos
  · exact hneg ‹_›

theorem repeatedBy_orBadOperand {α : Type} {r q : Option α} {k k' : α → Result} (hr : r = q)
    (hk : ∀ a, RepeatedBy t (k a) (k' a)) : RepeatedBy t (orBadOperand r s k) (orBadOperand q t k') := by
  subst hr
  cases r with
  | none => exact repeatedBy_fail _
  | some a => exact hk a

theorem repeatedBy_read {α : Type} {r q : Except Fault α} {k k' : α → Result} (hr : r = q)
    (hk : ∀ a, RepeatedBy t (k a) (k' a)) : RepeatedBy t (orFault r k) (orFault q k') := by
  subst hr
  cases r with
  | ok a => exact hk a
  | error f => exact fun h => nomatch h

theorem repeatedBy_writeByte {v w : State} {st : Store} {i : Nat} {b : Byte} {k k' : State → Result}
    (hk : RepeatedBy t (k (setStore st ((storeOf st v).write i b) v)) (k' (setStore st ((storeOf st w).write i b) w))) :
    RepeatedBy t (orFault (writeByte st i b v) k) (orFault (writeByte st i b w) k') := by
  intro h
  obtain ⟨x, hx, h⟩ := orFault_eq_next_iff.1 h
  obtain ⟨hi, rfl⟩ := writeByte_eq_ok_iff.1 hx
  rw [writeByte_eq_ok b w hi, orFault_ok]
  exact hk h

theorem repeatedBy_writeBytes {v w : State} {st : Store} {i : Nat} {bs : List Byte} {k k' : State → Result}
    (hk : RepeatedBy t (k (setStore st ((storeOf st v).writeAll i bs) v))
      (k' (setStore st ((storeOf st w).writeAll i bs) w))) :
    RepeatedBy t (orFault (writeBytes st i bs v) k) (orFault (writeBytes st i bs w) k') := by
  intro h
  obtain ⟨x, hx, h⟩ := orFault_eq_next_iff.1 h
  obtain ⟨rfl, -⟩ := writeBytes_eq_ok_inv hx
  rw [writeBytes_eq_ok_of_eq_ok w hx, orFault_ok]
  exact hk h

/-- A read of one byte behind a checked operand, of the same store in both runs (rules R131, R153, R154). -/
theorem repeatedBy_indexedRead {idx idx' : Option Nat} {st : Store} (hidx : idx = idx')
    (hst : storeOf st s = storeOf st t) :
    RepeatedBy t (orBadOperand idx s fun k => orFault (readByte st k s) fun b => answer (zext16 b) s)
      (orBadOperand idx' t fun k => orFault (readByte st k t) fun b => answer (zext16 b) t) :=
  repeatedBy_orBadOperand hidx fun k =>
    repeatedBy_read (readByte_congr (congrArg (·.read k) hst)) fun _ => repeatedBy_answer _

end

/-! ### The codec commands

Each ends in a run of writes on `t`, compared with `t` field by field. A field written is the one `t` already has, by
the equation `ht` that says how the first run made `t`; it is cited as `(congrArg _ ht :)`, with no expected type, so that
Lean compares the fields and not the whole states. -/

section
variable {s t : State}

/-- `ENCODE` reads the field registers and `PL` and writes neither (rule R160). -/
theorem execEncode_repeated (hver : s.ver = t.ver) (hflg : s.flg = t.flg) (htxid : s.txid = t.txid)
    (hlen : s.len = t.len) (hpl : s.pl = t.pl) : RepeatedBy t (execEncode s) (execEncode t) := by
  unfold execEncode
  rw [← hver, ← hflg, ← htxid, ← hlen]
  refine repeatedBy_read (readBytes_congr fun j _ => congrArg (·.read j) hpl) fun p => ?_
  refine repeatedBy_writeBytes (repeatedBy_done fun ht => ?_)
  exact { sameVisible_refl t with
    cnt := (congrArg State.cnt ht :)
    csum := (congrArg State.csum ht :)
    resp := (congrArg State.resp ht :)
    buf := fun j _ => memory_read_writeAll_again (congrArg State.buf ht) j }

/-- Steps 5 to 8 of `DECODE` read `BUF` and `CNT` and write neither (rule R161). -/
theorem decodeExtent_repeated (b0 id l : Byte) (hcnt : s.cnt = t.cnt) (hbuf : s.buf = t.buf) :
    RepeatedBy t (decodeExtent b0 id l s) (decodeExtent b0 id l t) := by
  have hread (k : Nat) : readByte .buf k s = readByte .buf k t := readByte_congr (congrArg (·.read k) hbuf)
  unfold decodeExtent
  rw [← hcnt]
  refine repeatedBy_ite (repeatedBy_fail _) fun _ => ?_
  refine repeatedBy_read (readBytes_congr fun j _ => congrArg (·.read j) hbuf) fun body => ?_
  refine repeatedBy_read (hread _) fun low => repeatedBy_read (hread _) fun high => ?_
  refine repeatedBy_ite (repeatedBy_fail _) fun _ => repeatedBy_writeBytes (repeatedBy_done fun ht => ?_)
  exact { sameVisible_refl t with
    ver := (congrArg State.ver ht :)
    flg := (congrArg State.flg ht :)
    txid := (congrArg State.txid ht :)
    len := (congrArg State.len ht :)
    csum := (congrArg State.csum ht :)
    resp := (congrArg State.resp ht :)
    pl := fun j _ => memory_read_writeAll_again (congrArg State.pl ht) j }

/-- `DECODE` too reads no more than `BUF` and `CNT`. -/
theorem execDecode_repeated (hcnt : s.cnt = t.cnt) (hbuf : s.buf = t.buf) :
    RepeatedBy t (execDecode s) (execDecode t) := by
  have hread (k : Nat) : readByte .buf k s = readByte .buf k t := readByte_congr (congrArg (·.read k) hbuf)
  unfold execDecode
  rw [← hcnt]
  refine repeatedBy_ite (repeatedBy_fail _) fun _ => ?_
  refine repeatedBy_read (hread 0) fun b0 => repeatedBy_read (hread 1) fun id => repeatedBy_read (hread 2) fun l => ?_
  refine repeatedBy_ite (repeatedBy_fail _) fun _ => repeatedBy_ite (repeatedBy_fail _) fun _ => ?_
  exact decodeExtent_repeated b0 id l hcnt hbuf

/-- `TAG` writes the id byte and the trailer; of what it reads, all but the id byte, which it has then written, stands
below the trailer and is left alone (rule R162). -/
theorem execTag_repeated (id : Byte) (hcnt : s.cnt = t.cnt)
    (hbuf : ∀ j < s.cnt.toNat - 2, j ≠ 1 → s.buf.read j = t.buf.read j) :
    RepeatedBy t (execTag id s) (execTag id t) := by
  unfold execTag
  rw [← hcnt]
  refine repeatedBy_ite (repeatedBy_fail _) fun hmin => ?_
  simp only [Config.minFrameBytes] at hmin
  refine repeatedBy_read (readByte_congr (hbuf 0 (by omega) (by decide))) fun b0 => ?_
  refine repeatedBy_ite (repeatedBy_fail _) fun _ => repeatedBy_writeByte ?_
  have htagged : ∀ j < 0 + (s.cnt.toNat - 2), (s.buf.write 1 id).read j = (t.buf.write 1 id).read j :=
    fun j hj => memory_read_write_congr id (hbuf j (by omega))
  refine repeatedBy_read (readBytes_congr htagged) fun body => ?_
  refine repeatedBy_writeBytes (repeatedBy_done fun ht => ?_)
  exact { sameVisible_refl t with
    resp := (congrArg State.resp ht :)
    buf := fun j _ => memory_read_write_writeAll_again (congrArg State.buf ht) j }

end

/-! ### Every command -/

/-- Every command but the three that add a byte is repeated: its own law says which states it can have answered. -/
theorem exec_repeated {i : Instr} {s t : State} (hi : i.mnemonic ∉ [.crcbyte, .plpush, .bufpush])
    (h : exec i s = .next t) : RepeatedBy t (exec i s) (exec i t) := by
  cases i with
  | crcbyte | plpush | bufpush => exact absurd (by simp [Instr.mnemonic]) hi
  | nop | reset | clrerr | crcinit | setid | setb0 | plclr | bufclr =>
    cases h
    exact repeatedBy_done fun _ => sameVisible_refl _
  | setver | setflg =>
    refine repeatedBy_orBadOperand rfl fun _ => repeatedBy_done fun ht => ?_
    subst ht
    exact sameVisible_refl _
  | rdstat | rdcrc | rdver | rdflg | rdid | rdlen | rdcsum | rdclass | rdb0 | rdcnt =>
    cases h
    exact repeatedBy_answer _
  | rdpl | rdbuf | rdbufh =>
    obtain rfl | ⟨v, rfl⟩ := indexedRead_inv h
    · exact repeatedBy_indexedRead rfl rfl
    · exact repeatedBy_indexedRead rfl rfl
  | encode =>
    obtain ⟨p, -, -, rfl⟩ := execEncode_inv h
    exact execEncode_repeated rfl rfl rfl rfl rfl
  | decode =>
    obtain ⟨c, -, rfl⟩ | ⟨b0, id, l, p, -, -, -, -, -, rfl⟩ := execDecode_inv h
    · exact execDecode_repeated rfl rfl
    · exact execDecode_repeated rfl rfl
  | tag id =>
    obtain ⟨c, -, rfl⟩ | ⟨body, -, -, -, -, rfl⟩ := execTag_inv h
    · exact execTag_repeated id rfl fun _ _ _ => rfl
    · refine execTag_repeated id rfl fun j hj h1 => Eq.symm ?_
      exact (memory_read_writeAll_outside _ (.inl hj)).trans (memory_read_write_other s.buf id h1)

/-- Settles O48: a command that answers is repeated, and a read does what `exec_read_frame` says. -/
theorem commandsAreIdempotent : Obligations.CommandsAreIdempotent :=
  ⟨fun _ _ _ hi h => exec_repeated hi h h, fun _ _ _ hi h => exec_read_frame hi h⟩

end Sys2Proof.Machine
end
